-- ==== Sys2Proof/Word.lean ====
section
/-! DEFINITION. The unsigned value types of the hardware (00_scope.md R6, R7): every register value is unsigned and has
a stated width, and bit 0 is the least significant bit. -/

namespace Sys2Proof

/-- `u8`: a register, a timer, a memory cell, an immediate byte (R6). -/
abbrev Byte := BitVec 8

/-- `u16`: the index register, the program counter, a return address, an instruction word (R6). -/
abbrev Word16 := BitVec 16

/-- `u4`: one nibble of an instruction word, a key code (R6, R9). -/
abbrev Nibble := BitVec 4

/-- The number of a general register, 0 to 15 (R20, R82); every value names a register. -/
abbrev Reg := BitVec 4

/-- The 12-bit absolute address field `nnn` (R82). -/
abbrev Addr12 := BitVec 12

end Sys2Proof
end

