-- ==== Sys2Proof/Config.lean ====
section
/-! DEFINITION. The implementation parameters of 00_scope.md R5, each with the value this hardware takes, the parameter
of 30_encoding.md R87, and the one free value of the hardware (44_random.md R175). The font bytes (R58) stand in
Sys2Proof/Machine/Font.lean. -/

namespace Sys2Proof.Config

/-- `MEM_SIZE`: bytes of memory, addresses 0 to `MEM_SIZE`-1 (R5; decision D5, log 9). -/
abbrev memSize : Nat := 4096

/-- `PROG_BASE`, the "reserved boundary": load address, reset PC, lowest address an instruction may write (R5). -/
abbrev progBase : Nat := 0x200

/-- `FONT_BASE`: address of glyph 0 of the font table (R5; decision D15, log 9). -/
abbrev fontBase : Nat := 0x000

/-- `FONT_BYTES`: 16 glyphs of 5 bytes (R5). -/
abbrev fontBytes : Nat := 80

/-- `DISP_W`: display columns (R5). -/
abbrev dispW : Nat := 64

/-- `DISP_H`: display rows (R5). -/
abbrev dispH : Nat := 32

/-- `NREGS`: general registers (R5). -/
abbrev nRegs : Nat := 16

/-- `STACK_DEPTH`: capacity of the call stack in return addresses (R5, R30; decision D6, log 7). -/
abbrev stackDepth : Nat := 16

/-- `NKEYS`: key codes 0x0 to 0xF (R5). -/
abbrev nKeys : Nat := 16

/-- `JP_V0_IMPLEMENTED`: whether `Bnnn` is JP V0, addr or an unknown word (R87; decision D8, log 8). -/
abbrev jpV0Implemented : Bool := true

/-- DESIGN CHOICE (log 2). The free values of `rand`: the byte supplied to the `k`-th step event whose driver gives no
byte of its own. "`rand` is a value the hardware does not determine from its architectural state: a model takes it as a
free input of each step (a draw, under no law)" (R175), so it has no body and nothing can be proved about its value. -/
opaque freeRand : Nat → Byte

end Sys2Proof.Config
end

