-- ==== Sys2Proof/Syntax.lean ====
section
/-! DEFINITION. The 34 instructions of 30_encoding.md R85, one constructor per row of spec/opcode_table.json, in the
table's order. The operand fields are those of R82 (`x`, `y`, `n`, `nn`, `nnn`), typed by their width, so that every
term is an instruction the hardware can hold; bits the decoder ignores (R90) are no operands (log 14). -/

namespace Sys2Proof

/-- One decoded instruction: "the decoded operation a 2-byte instruction represents" (R12, R85). -/
inductive Instr where
  /-- `00E0` CLS (R190). -/
  | cls
  /-- `00EE` RET (R112). -/
  | ret
  /-- `1nnn` JP addr (R110). -/
  | jp (nnn : Addr12)
  /-- `2nnn` CALL addr (R111). -/
  | call (nnn : Addr12)
  /-- `3xnn` SE Vx, byte (R113). -/
  | seImm (x : Reg) (nn : Byte)
  /-- `4xnn` SNE Vx, byte (R114). -/
  | sneImm (x : Reg) (nn : Byte)
  /-- `5xy?` SE Vx, Vy (R115). -/
  | seReg (x y : Reg)
  /-- `6xnn` LD Vx, byte (R130). -/
  | ldImm (x : Reg) (nn : Byte)
  /-- `7xnn` ADD Vx, byte (R131). -/
  | addImm (x : Reg) (nn : Byte)
  /-- `8xy0` LD Vx, Vy (R132). -/
  | ldReg (x y : Reg)
  /-- `8xy1` OR Vx, Vy (R133). -/
  | orReg (x y : Reg)
  /-- `8xy2` AND Vx, Vy (R134). -/
  | andReg (x y : Reg)
  /-- `8xy3` XOR Vx, Vy (R135). -/
  | xorReg (x y : Reg)
  /-- `8xy4` ADD Vx, Vy (R136). -/
  | addReg (x y : Reg)
  /-- `8xy5` SUB Vx, Vy (R137). -/
  | sub (x y : Reg)
  /-- `8x?6` SHR Vx (R138). -/
  | shr (x : Reg)
  /-- `8xy7` SUBN Vx, Vy (R139). -/
  | subn (x y : Reg)
  /-- `8x?E` SHL Vx (R140). -/
  | shl (x : Reg)
  /-- `9xy?` SNE Vx, Vy (R116). -/
  | sneReg (x y : Reg)
  /-- `Annn` LD I, addr (R150). -/
  | ldI (nnn : Addr12)
  /-- `Bnnn` JP V0, addr (R117). -/
  | jpV0 (nnn : Addr12)
  /-- `Cxnn` RND Vx, byte (R175). -/
  | rnd (x : Reg) (nn : Byte)
  /-- `Dxyn` DRW Vx, Vy, nibble (R191). -/
  | drw (x y : Reg) (n : Nibble)
  /-- `Ex9E` SKP Vx (R181). -/
  | skp (x : Reg)
  /-- `ExA1` SKNP Vx (R182). -/
  | sknp (x : Reg)
  /-- `Fx07` LD Vx, DT (R152). -/
  | ldVxDt (x : Reg)
  /-- `Fx0A` LD Vx, K (R180). -/
  | ldVxK (x : Reg)
  /-- `Fx15` LD DT, Vx (R153). -/
  | ldDtVx (x : Reg)
  /-- `Fx18` LD ST, Vx (R154). -/
  | ldStVx (x : Reg)
  /-- `Fx1E` ADD I, Vx (R151). -/
  | addI (x : Reg)
  /-- `Fx29` LD F, Vx (R155). -/
  | ldF (x : Reg)
  /-- `Fx33` LD B, Vx (R165). -/
  | ldB (x : Reg)
  /-- `Fx55` LD [I], Vx (R166). -/
  | ldMemVx (x : Reg)
  /-- `Fx65` LD Vx, [I] (R167). -/
  | ldVxMem (x : Reg)
  deriving DecidableEq, Repr

end Sys2Proof
end

