-- ==== Sys2Proof/WellFormed.lean ====
section
/-! DEFINITION. The checks that the operand types do not make by themselves: the parameter that removes an instruction
(30_encoding.md R87), the size of a program image (50_interfaces.md R203) and the range of a key code (R205, R213). -/

namespace Sys2Proof

/-- Whether the hardware has the instruction when `JP_V0_IMPLEMENTED` is `jpV0` (R87): "A model that prefers to follow
only what the source words may instead decode `Bnnn` as UNKNOWN". Every other instruction is always there, and the
types of the operand fields leave no ill-formed operand (R20, R91). -/
def Instr.wellFormedUnder (jpV0 : Bool) : Instr → Bool
  | .jpV0 _ => jpV0
  | .cls | .ret | .jp _ | .call _ | .seImm _ _ | .sneImm _ _ | .seReg _ _ | .ldImm _ _ | .addImm _ _
  | .ldReg _ _ | .orReg _ _ | .andReg _ _ | .xorReg _ _ | .addReg _ _ | .sub _ _ | .shr _ | .subn _ _ | .shl _
  | .sneReg _ _ | .ldI _ | .rnd _ _ | .drw _ _ _ | .skp _ | .sknp _ | .ldVxDt _ | .ldVxK _ | .ldDtVx _
  | .ldStVx _ | .addI _ | .ldF _ | .ldB _ | .ldMemVx _ | .ldVxMem _ => true

/-- Whether this hardware has the instruction (R85, R87). -/
def Instr.wellFormed (i : Instr) : Bool := i.wellFormedUnder Config.jpV0Implemented

/-- Whether a program image fits between `PROG_BASE` and the end of memory (R203). -/
def imageFits (image : List Byte) : Bool := decide (image.length ≤ Config.memSize - Config.progBase)

/-- Whether a code is one a conforming keypad sends, 0x0 to 0xF (R205, R213). -/
def keyCodeValid (code : Nat) : Bool := decide (code < Config.nKeys)

end Sys2Proof
end

