-- ==== Sys2Proof/Decode.lean ====
section
/-! DEFINITION. The decoder of 30_encoding.md R82 to R84, total on every word, then the encoder written from the table
of R85, then the opcode table's rows (spec/opcode_table.json) as data. The numeric encoding is the spec's and is marked
there [from general knowledge, not in source] (log 5). -/

namespace Sys2Proof

/-! ### Fields (R82) -/

/-- `op = instr[15:12]`, the primary opcode family. -/
def fieldOp (w : Word16) : Nibble := w.extractLsb' 12 4

/-- `x = instr[11:8]`, the first register number. -/
def fieldX (w : Word16) : Reg := w.extractLsb' 8 4

/-- `y = instr[7:4]`, the second register number. -/
def fieldY (w : Word16) : Reg := w.extractLsb' 4 4

/-- `n = instr[3:0]`, the 4-bit immediate, or the secondary opcode of family 8. -/
def fieldN (w : Word16) : Nibble := w.extractLsb' 0 4

/-- `nn = instr[7:0]`, the immediate byte, or the secondary opcode of families E and F. -/
def fieldNN (w : Word16) : Byte := w.extractLsb' 0 8

/-- `nnn = instr[11:0]`, the absolute address. -/
def fieldNNN (w : Word16) : Addr12 := w.extractLsb' 0 12

/-! ### Decoding (R84, R88) -/

/-- What the decoder answers. -/
inductive Decoded where
  /-- One of the 34 instructions. -/
  | known (i : Instr)
  /-- The "explicit 'unknown' sentinel" (R84, R88): the word matches no operation. -/
  | unknown (w : Word16)
  deriving DecidableEq, Repr

/-- What decoding from a byte sequence answers. -/
inductive DecodedBytes where
  /-- Two bytes were decoded; `rest` are the bytes after them. -/
  | decoded (d : Decoded) (rest : List Byte)
  /-- Fewer than two bytes: no instruction (R80: all instructions are exactly 2 bytes long). -/
  | truncated
  deriving DecidableEq, Repr

/-- Family 0: the whole word is matched (R84, R88). -/
def decodeFamily0 (w : Word16) : Decoded :=
  if w = 0x00E0#16 then .known .cls
  else if w = 0x00EE#16 then .known .ret
  else .unknown w

/-- Family 8: the low nibble `n` selects the operation (R84). -/
def decodeFamily8 (w : Word16) : Decoded :=
  match fieldN w with
  | 0x0#4 => .known (.ldReg (fieldX w) (fieldY w))
  | 0x1#4 => .known (.orReg (fieldX w) (fieldY w))
  | 0x2#4 => .known (.andReg (fieldX w) (fieldY w))
  | 0x3#4 => .known (.xorReg (fieldX w) (fieldY w))
  | 0x4#4 => .known (.addReg (fieldX w) (fieldY w))
  | 0x5#4 => .known (.sub (fieldX w) (fieldY w))
  | 0x6#4 => .known (.shr (fieldX w))
  | 0x7#4 => .known (.subn (fieldX w) (fieldY w))
  | 0xE#4 => .known (.shl (fieldX w))
  | _ => .unknown w

/-- Family E: the low byte `nn` selects the operation (R84). -/
def decodeFamilyE (w : Word16) : Decoded :=
  match fieldNN w with
  | 0x9E#8 => .known (.skp (fieldX w))
  | 0xA1#8 => .known (.sknp (fieldX w))
  | _ => .unknown w

/-- Family F: the low byte `nn` selects the operation (R84). -/
def decodeFamilyF (w : Word16) : Decoded :=
  match fieldNN w with
  | 0x07#8 => .known (.ldVxDt (fieldX w))
  | 0x0A#8 => .known (.ldVxK (fieldX w))
  | 0x15#8 => .known (.ldDtVx (fieldX w))
  | 0x18#8 => .known (.ldStVx (fieldX w))
  | 0x1E#8 => .known (.addI (fieldX w))
  | 0x29#8 => .known (.ldF (fieldX w))
  | 0x33#8 => .known (.ldB (fieldX w))
  | 0x55#8 => .known (.ldMemVx (fieldX w))
  | 0x65#8 => .known (.ldVxMem (fieldX w))
  | _ => .unknown w

/-- The decode procedure of R84 with the parameter `JP_V0_IMPLEMENTED` of R87. -/
def decodeUnder (jpV0 : Bool) (w : Word16) : Decoded :=
  match fieldOp w with
  | 0x0#4 => decodeFamily0 w
  | 0x1#4 => .known (.jp (fieldNNN w))
  | 0x2#4 => .known (.call (fieldNNN w))
  | 0x3#4 => .known (.seImm (fieldX w) (fieldNN w))
  | 0x4#4 => .known (.sneImm (fieldX w) (fieldNN w))
  | 0x5#4 => .known (.seReg (fieldX w) (fieldY w))
  | 0x6#4 => .known (.ldImm (fieldX w) (fieldNN w))
  | 0x7#4 => .known (.addImm (fieldX w) (fieldNN w))
  | 0x8#4 => decodeFamily8 w
  | 0x9#4 => .known (.sneReg (fieldX w) (fieldY w))
  | 0xA#4 => .known (.ldI (fieldNNN w))
  | 0xB#4 => if jpV0 then .known (.jpV0 (fieldNNN w)) else .unknown w
  | 0xC#4 => .known (.rnd (fieldX w) (fieldNN w))
  | 0xD#4 => .known (.drw (fieldX w) (fieldY w) (fieldN w))
  | 0xE#4 => decodeFamilyE w
  | 0xF#4 => decodeFamilyF w
  | _ => .unknown w

/-- The decoder of this hardware: total on all 65536 words (R84). -/
def decode (w : Word16) : Decoded := decodeUnder Config.jpV0Implemented w

/-- The word of two fetched bytes, the byte at the lower address in bits 15:8 (20_memory.md R57, R80; log 5). -/
def joinBytes (hi lo : Byte) : Word16 := hi ++ lo

/-- `hi = instr[15:8]`, the byte at the lower address (R57). -/
def highByte (w : Word16) : Byte := w.extractLsb' 8 8

/-- `lo = instr[7:0]`, the byte at the higher address (R57). -/
def lowByte (w : Word16) : Byte := w.extractLsb' 0 8

/-- Decode the instruction at the front of a byte sequence and give the bytes after it (R57, R80). -/
def decodeBytes : List Byte → DecodedBytes
  | hi :: lo :: rest => .decoded (decode (joinBytes hi lo)) rest
  | [_] => .truncated
  | [] => .truncated

/-! ### Encoding (R85) -/

/-- The word of an instruction, from the table of R85; a nibble the decoder ignores is encoded as 0 (R92). -/
def encode : Instr → Word16
  | .cls => 0x00E0#16
  | .ret => 0x00EE#16
  | .jp nnn => 0x1#4 ++ nnn
  | .call nnn => 0x2#4 ++ nnn
  | .seImm x nn => 0x3#4 ++ x ++ nn
  | .sneImm x nn => 0x4#4 ++ x ++ nn
  | .seReg x y => 0x5#4 ++ x ++ y ++ 0x0#4
  | .ldImm x nn => 0x6#4 ++ x ++ nn
  | .addImm x nn => 0x7#4 ++ x ++ nn
  | .ldReg x y => 0x8#4 ++ x ++ y ++ 0x0#4
  | .orReg x y => 0x8#4 ++ x ++ y ++ 0x1#4
  | .andReg x y => 0x8#4 ++ x ++ y ++ 0x2#4
  | .xorReg x y => 0x8#4 ++ x ++ y ++ 0x3#4
  | .addReg x y => 0x8#4 ++ x ++ y ++ 0x4#4
  | .sub x y => 0x8#4 ++ x ++ y ++ 0x5#4
  | .shr x => 0x8#4 ++ x ++ 0x0#4 ++ 0x6#4
  | .subn x y => 0x8#4 ++ x ++ y ++ 0x7#4
  | .shl x => 0x8#4 ++ x ++ 0x0#4 ++ 0xE#4
  | .sneReg x y => 0x9#4 ++ x ++ y ++ 0x0#4
  | .ldI nnn => 0xA#4 ++ nnn
  | .jpV0 nnn => 0xB#4 ++ nnn
  | .rnd x nn => 0xC#4 ++ x ++ nn
  | .drw x y n => 0xD#4 ++ x ++ y ++ n
  | .skp x => 0xE#4 ++ x ++ 0x9E#8
  | .sknp x => 0xE#4 ++ x ++ 0xA1#8
  | .ldVxDt x => 0xF#4 ++ x ++ 0x07#8
  | .ldVxK x => 0xF#4 ++ x ++ 0x0A#8
  | .ldDtVx x => 0xF#4 ++ x ++ 0x15#8
  | .ldStVx x => 0xF#4 ++ x ++ 0x18#8
  | .addI x => 0xF#4 ++ x ++ 0x1E#8
  | .ldF x => 0xF#4 ++ x ++ 0x29#8
  | .ldB x => 0xF#4 ++ x ++ 0x33#8
  | .ldMemVx x => 0xF#4 ++ x ++ 0x55#8
  | .ldVxMem x => 0xF#4 ++ x ++ 0x65#8

/-- The two bytes of an instruction as memory holds them, high byte first (R57). -/
def encodeBytes (i : Instr) : List Byte := [highByte (encode i), lowByte (encode i)]

/-! ### The opcode table (spec/opcode_table.json) as data -/

/-- One row: a word `w` selects it when `w & mask = pattern` (INDEX.md). -/
structure OpcodeRow where
  /-- The bits that are fixed. -/
  mask : Word16
  /-- Their values (the table's "match"). -/
  pattern : Word16
  deriving DecidableEq, Repr

/-- Whether a word selects a row. -/
def OpcodeRow.selects (r : OpcodeRow) (w : Word16) : Bool := w &&& r.mask == r.pattern

/-- The mask and match of the instruction's row of spec/opcode_table.json. -/
def Instr.row : Instr → OpcodeRow
  | .cls => ⟨0xFFFF, 0x00E0⟩
  | .ret => ⟨0xFFFF, 0x00EE⟩
  | .jp _ => ⟨0xF000, 0x1000⟩
  | .call _ => ⟨0xF000, 0x2000⟩
  | .seImm _ _ => ⟨0xF000, 0x3000⟩
  | .sneImm _ _ => ⟨0xF000, 0x4000⟩
  | .seReg _ _ => ⟨0xF000, 0x5000⟩
  | .ldImm _ _ => ⟨0xF000, 0x6000⟩
  | .addImm _ _ => ⟨0xF000, 0x7000⟩
  | .ldReg _ _ => ⟨0xF00F, 0x8000⟩
  | .orReg _ _ => ⟨0xF00F, 0x8001⟩
  | .andReg _ _ => ⟨0xF00F, 0x8002⟩
  | .xorReg _ _ => ⟨0xF00F, 0x8003⟩
  | .addReg _ _ => ⟨0xF00F, 0x8004⟩
  | .sub _ _ => ⟨0xF00F, 0x8005⟩
  | .shr _ => ⟨0xF00F, 0x8006⟩
  | .subn _ _ => ⟨0xF00F, 0x8007⟩
  | .shl _ => ⟨0xF00F, 0x800E⟩
  | .sneReg _ _ => ⟨0xF000, 0x9000⟩
  | .ldI _ => ⟨0xF000, 0xA000⟩
  | .jpV0 _ => ⟨0xF000, 0xB000⟩
  | .rnd _ _ => ⟨0xF000, 0xC000⟩
  | .drw _ _ _ => ⟨0xF000, 0xD000⟩
  | .skp _ => ⟨0xF0FF, 0xE09E⟩
  | .sknp _ => ⟨0xF0FF, 0xE0A1⟩
  | .ldVxDt _ => ⟨0xF0FF, 0xF007⟩
  | .ldVxK _ => ⟨0xF0FF, 0xF00A⟩
  | .ldDtVx _ => ⟨0xF0FF, 0xF015⟩
  | .ldStVx _ => ⟨0xF0FF, 0xF018⟩
  | .addI _ => ⟨0xF0FF, 0xF01E⟩
  | .ldF _ => ⟨0xF0FF, 0xF029⟩
  | .ldB _ => ⟨0xF0FF, 0xF033⟩
  | .ldMemVx _ => ⟨0xF0FF, 0xF055⟩
  | .ldVxMem _ => ⟨0xF0FF, 0xF065⟩

/-- The 34 rows in the table's order. -/
def opcodeTable : List OpcodeRow :=
  [⟨0xFFFF, 0x00E0⟩, ⟨0xFFFF, 0x00EE⟩, ⟨0xF000, 0x1000⟩, ⟨0xF000, 0x2000⟩, ⟨0xF000, 0x3000⟩, ⟨0xF000, 0x4000⟩,
   ⟨0xF000, 0x5000⟩, ⟨0xF000, 0x6000⟩, ⟨0xF000, 0x7000⟩] ++
  [⟨0xF00F, 0x8000⟩, ⟨0xF00F, 0x8001⟩, ⟨0xF00F, 0x8002⟩, ⟨0xF00F, 0x8003⟩, ⟨0xF00F, 0x8004⟩, ⟨0xF00F, 0x8005⟩,
   ⟨0xF00F, 0x8006⟩, ⟨0xF00F, 0x8007⟩, ⟨0xF00F, 0x800E⟩] ++
  [⟨0xF000, 0x9000⟩, ⟨0xF000, 0xA000⟩, ⟨0xF000, 0xB000⟩, ⟨0xF000, 0xC000⟩, ⟨0xF000, 0xD000⟩] ++
  [⟨0xF0FF, 0xE09E⟩, ⟨0xF0FF, 0xE0A1⟩, ⟨0xF0FF, 0xF007⟩, ⟨0xF0FF, 0xF00A⟩, ⟨0xF0FF, 0xF015⟩, ⟨0xF0FF, 0xF018⟩,
   ⟨0xF0FF, 0xF01E⟩, ⟨0xF0FF, 0xF029⟩, ⟨0xF0FF, 0xF033⟩, ⟨0xF0FF, 0xF055⟩, ⟨0xF0FF, 0xF065⟩]

/-- The bits of the instruction's word that the decoder ignores (R90): the low nibble of `5xy?` and `9xy?`, the `y`
nibble of `8x?6` and `8x?E`, no bit of any other instruction. -/
def Instr.ignoredBits : Instr → Word16
  | .seReg _ _ | .sneReg _ _ => 0x000F
  | .shr _ | .shl _ => 0x00F0
  | .cls | .ret | .jp _ | .call _ | .seImm _ _ | .sneImm _ _ | .ldImm _ _ | .addImm _ _
  | .ldReg _ _ | .orReg _ _ | .andReg _ _ | .xorReg _ _ | .addReg _ _ | .sub _ _ | .subn _ _
  | .ldI _ | .jpV0 _ | .rnd _ _ | .drw _ _ _ | .skp _ | .sknp _ | .ldVxDt _ | .ldVxK _ | .ldDtVx _
  | .ldStVx _ | .addI _ | .ldF _ | .ldB _ | .ldMemVx _ | .ldVxMem _ => 0x0000

/-! ### The host's entry -/

/-- The bytes of a table word of `nbits` bits as the hardware stores them: the high byte at the lower address (R57);
bits at or above `nbits` are 0. -/
def tableBytes (nbits w : Nat) : List Byte :=
  [BitVec.ofNat 8 (w % 2 ^ nbits / 256), BitVec.ofNat 8 (w % 2 ^ nbits)]

/-- The instruction the decoder reads from a table word; none where the word is unknown. -/
def decodeTableWord (nbits w : Nat) : Option Instr :=
  match decodeBytes (tableBytes nbits w) with
  | .decoded (.known i) _ => some i
  | .decoded (.unknown _) _ => none
  | .truncated => none

end Sys2Proof
end

