-- ==== Sys2Proof/Machine/Flags.lean ====
section
/-! DEFINITION. The arithmetic results and every flag computation of 41_load_arith.md (R136 to R141) and 10_state.md
R22: the flag is computed from the exact unsigned values, the result is narrowed. -/

namespace Sys2Proof.Machine

/-- The byte a flag write stores: exactly 0x00 or 0x01 (R22, R141(e)). -/
def flagByte (b : Bool) : Byte := if b then 0x01 else 0x00

/-- `trunc_8(a + b)` (R131, R136). -/
def sum8 (a b : Byte) : Byte := BitVec.ofNat 8 (a.toNat + b.toNat)

/-- The carry of R136: the exact sum exceeds 255. -/
def carry (a b : Byte) : Bool := decide (255 < a.toNat + b.toNat)

/-- `trunc_8(minuend - subtrahend)`, that is `(minuend - subtrahend + 256) mod 256` (R137, R139). -/
def difference8 (minuend subtrahend : Byte) : Byte := BitVec.ofNat 8 (minuend.toNat + 256 - subtrahend.toNat)

/-- The not-borrow flag of R137 and R139: minuend at or above subtrahend. -/
def notBorrow (minuend subtrahend : Byte) : Bool := decide (subtrahend.toNat ≤ minuend.toNat)

/-- `a >> 1`, a logical shift: bit 7 becomes 0 (R138). -/
def shiftRight1 (a : Byte) : Byte := BitVec.ofNat 8 (a.toNat / 2)

/-- The bit SHR shifts out: `a[0]` (R138). -/
def shiftedOutRight (a : Byte) : Bool := a.getLsbD 0

/-- `trunc_8(a << 1)`: bit 0 becomes 0 (R140). -/
def shiftLeft1 (a : Byte) : Byte := BitVec.ofNat 8 (2 * a.toNat)

/-- The bit SHL shifts out: `a[7]` (R140). -/
def shiftedOutLeft (a : Byte) : Bool := a.getLsbD 7

end Sys2Proof.Machine
end

