-- ==== Sys2Proof/Machine/Font.lean ====
section
/-! DEFINITION. The font table of 20_memory.md R58 and the reset contents of memory (10_state.md R39,
70_reset_and_hazards.md R260). -/

namespace Sys2Proof.Machine

/-- `FONT[0..79]`: 16 glyphs of 5 bytes, digit 0 first (R58; the bytes are the spec's and UNVERIFIED there, decision
D16, log 6). -/
def fontTable : List Byte :=
  [0xF0, 0x90, 0x90, 0x90, 0xF0,  -- 0
   0x20, 0x60, 0x20, 0x20, 0x70,  -- 1
   0xF0, 0x10, 0xF0, 0x80, 0xF0,  -- 2
   0xF0, 0x10, 0xF0, 0x10, 0xF0,  -- 3
   0x90, 0x90, 0xF0, 0x10, 0x10,  -- 4
   0xF0, 0x80, 0xF0, 0x10, 0xF0,  -- 5
   0xF0, 0x80, 0xF0, 0x90, 0xF0,  -- 6
   0xF0, 0x10, 0x20, 0x40, 0x40] ++  -- 7
  [0xF0, 0x90, 0xF0, 0x90, 0xF0,  -- 8
   0xF0, 0x90, 0xF0, 0x10, 0xF0,  -- 9
   0xF0, 0x90, 0xF0, 0x90, 0x90,  -- A
   0xE0, 0x90, 0xE0, 0x90, 0xE0,  -- B
   0xF0, 0x80, 0x80, 0x80, 0xF0,  -- C
   0xE0, 0x90, 0x90, 0x90, 0xE0,  -- D
   0xF0, 0x80, 0xF0, 0x80, 0xF0,  -- E
   0xF0, 0x80, 0xF0, 0x80, 0x80]  -- F

/-- The byte at an address after reset, and so what an address that memory does not list reads as: the font table at
`FONT_BASE`, zero everywhere else (R39, R51, R260; decisions D16, D27, log 4). -/
def resetByte (a : Nat) : Byte :=
  if Config.fontBase ≤ a then fontTable.getD (a - Config.fontBase) 0x00 else 0x00

end Sys2Proof.Machine
end

