-- ==== Sys2Proof/Machine/State.lean ====
section
/-! DEFINITION. The whole state of the machine (10_state.md, R20 to R41), the reports (60_exceptions.md R232), the
events (50_interfaces.md R200), the outcomes of a step, and the state after reset (R39, R260). -/

namespace Sys2Proof.Machine

/-! ### Reports and events -/

/-- `kind` of a refused memory access (R232). -/
inductive Access where
  | read
  | write
  deriving DecidableEq, Repr

/-- The reports of R232, each with the information the spec gives it (decision D32). A report stops nothing: it "does
not change PC, does not save state, does not enter a handler and does not stop the machine" (R230). -/
inductive Report where
  /-- `MemOutOfRange(kind, addr)`, raised by LD B and LD [I],Vx (write), LD Vx,[I] and DRW (read). -/
  | memOutOfRange (kind : Access) (addr : Nat)
  /-- `FetchOutOfRange(pc)`, raised by the fetch (R81). -/
  | fetchOutOfRange (pc : Word16)
  /-- `UnknownOpcode(instr)`, raised when a word is unknown (R89). -/
  | unknownOpcode (instr : Word16)
  /-- `StackUnderflow(pc)`, raised by RET (R112). -/
  | stackUnderflow (pc : Word16)
  /-- `StackOverflow(pc)`, raised by CALL (R111). -/
  | stackOverflow (pc : Word16)
  /-- `LoadTooLarge(len)`, raised by the load event (R203). -/
  | loadTooLarge (len : Nat)
  deriving DecidableEq, Repr

/-- The seven events, the only causes of a state change (R200, R201). -/
inductive Event where
  /-- `reset` (R260). -/
  | reset
  /-- `load(image)` (R203). -/
  | load (image : List Byte)
  /-- `step(rand)`: one instruction, with the random byte the driver supplies (R204). -/
  | step (rand : Byte)
  /-- `tick` (R240). -/
  | tick
  /-- `key_down(code)` (R205). -/
  | keyDown (code : Nat)
  /-- `key_up(code)` (R206). -/
  | keyUp (code : Nat)
  /-- `redraw_ack` (R208). -/
  | redrawAck
  deriving DecidableEq, Repr

/-! ### Memory and display -/

/-- `MEM` (R32, R50): the bytes that differ from the reset contents, as (address, byte) pairs. -/
abbrev Memory := List Host.Cell

/-- The canonical form from address `lo` on: addresses strictly rising, inside memory, and no entry equal to what an
unlisted address reads as. -/
def Memory.wfFrom (lo : Nat) : Memory → Bool
  | [] => true
  | (a, v) :: rest => decide (lo ≤ a) && decide (a < Config.memSize) && (v != resetByte a) && Memory.wfFrom (a + 1) rest

/-- The one canonical form of a memory, so that equal memories are equal data. -/
def Memory.wf (m : Memory) : Bool := Memory.wfFrom 0 m

/-- `DISP`: `DISP_H` rows of `DISP_W` cells, row 0 the topmost and column 0 the leftmost; a cell is on or off (R33). -/
abbrev Display := Vector (Vector Bool Config.dispW) Config.dispH

/-- The display with every cell off (R39, R190). -/
def Display.clear : Display := Vector.replicate Config.dispH (Vector.replicate Config.dispW false)

/-! ### The state -/

/-- The state tuple of 10_state.md, then the model's own four fields (log 1, 2, 3). -/
structure State where
  /-- `V[0]` to `V[15]` (R20); `V[15]` is VF, the flag register (R22). -/
  v : Vector Byte Config.nRegs
  /-- `I`, the index register (R24). -/
  i : Word16
  /-- `PC`, the address of the high byte of the next instruction (R25). -/
  pc : Word16
  /-- `STACK`, the return addresses, most recent push last (R29). -/
  stack : List Word16
  /-- `DT`, the delay timer (R31). -/
  dt : Byte
  /-- `ST`, the sound timer (R31). -/
  st : Byte
  /-- `MEM` (R32). -/
  mem : Memory
  /-- `DISP` (R33). -/
  disp : Display
  /-- `REDRAW`, the "needs redraw" flag (R35). -/
  redraw : Bool
  /-- `KEY_PENDING`, the Input Latch (R36). -/
  keyPending : Option Nibble
  /-- `KEY_HELD[0..15]` (R37). -/
  keyHeld : Vector Bool Config.nKeys
  /-- The model's own: the argument `rand` of the step event now running (R204; R41(b): no register; log 2). -/
  rand : Byte
  /-- The model's own: how many free random bytes have been drawn (log 2). -/
  draws : Nat
  /-- The model's own: every report raised so far, oldest first, never cleared (R210, D31; log 3). -/
  log : List Report
  /-- The model's own: what the outside does next, first event first; when it is empty the driver issues a step event
  with a free random byte (R202; log 1). -/
  schedule : List Event
  deriving DecidableEq, Repr

/-! ### Outcomes -/

/-- The conditions that stop the machine: NONE. "Nothing in the engine's normal operation is fatal to the process; all
faults degrade to 'instruction had no effect' plus a reported diagnostic" (R230; log 12). The faults of R232 are
`Report`s, and nothing raises a `Fault`. -/
inductive Fault : Type
  deriving DecidableEq, Repr

/-- The reasons to give an instruction no meaning. -/
inductive Refusal where
  /-- Raised by a dispatch arm of an instruction that has no meaning yet. Safe: no claim about such an instruction can
  be proved. No arm raises it: every instruction has its meaning. -/
  | notModelled (mnemonic : String)
  deriving DecidableEq, Repr

/-! ### Reset -/

/-- The machine right after reset: the table of R39 (R260, R261). PC is stated by the source; the other values are the
spec's decisions D26 and D27 (log 4). The model's own fields take DESIGN CHOICE values (log 1, 2, 3). -/
def State.reset : State where
  v := Vector.replicate Config.nRegs 0x00
  i := 0x0000
  pc := BitVec.ofNat 16 Config.progBase
  stack := []
  dt := 0x00
  st := 0x00
  mem := []
  disp := Display.clear
  redraw := false
  keyPending := none
  keyHeld := Vector.replicate Config.nKeys false
  rand := 0x00
  draws := 0
  log := []
  schedule := []

end Sys2Proof.Machine
end

