-- ==== Sys2Proof/Machine/Operands.lean ====
section
/-! DEFINITION. The operand forms: general registers (10_state.md R20), immediates (30_encoding.md R91), the one
addressing mode `I + k` (20_memory.md R55), key codes (45_input.md R181) and decimal digits (43_memory_block.md R165). -/

namespace Sys2Proof.Machine

/-! ### Registers -/

/-- Register 15, VF (R8, R22). -/
abbrev vf : Reg := 0xF#4

/-- `V[k]`: read a general register (R8, R20). -/
def State.getV (s : State) (k : Reg) : Byte := s.v[k.toNat]'k.isLt

/-- `V[k] <- a`: write a general register (R8, R20). -/
def State.setV (s : State) (k : Reg) (a : Byte) : State := { s with v := s.v.set k.toNat a k.isLt }

/-- Registers 0 to `x` in ascending order: "for k in 0..x" (R8, R166, R167). -/
def regsUpTo (x : Reg) : List Reg := (List.range (x.toNat + 1)).map (BitVec.ofNat 4)

/-! ### Immediates and addresses -/

/-- `zext_16(nnn)`: an absolute address, 0x0000 to 0x0FFF (R91). -/
def zextAddr (nnn : Addr12) : Word16 := BitVec.ofNat 16 nnn.toNat

/-- `zext_16` of a register value (R91, R117, R151). -/
def zextByte (a : Byte) : Word16 := BitVec.ofNat 16 a.toNat

/-- `zext_8` of a key code: 0x00 to 0x0F (R180). -/
def zextNibble (k : Nibble) : Byte := BitVec.ofNat 8 k.toNat

/-- The effective address of the `k`-th byte of a block: the natural number `I + k`, NOT truncated to 16 or 12 bits
(R55; decision D20). -/
def State.blockAddr (s : State) (k : Nat) : Nat := s.i.toNat + k

/-- The address of the glyph of a register's low nibble: `FONT_BASE + 5 * (a & 0xF)` (R155; decision D15). -/
def glyphAddr (a : Byte) : Word16 := BitVec.ofNat 16 (Config.fontBase + 5 * (a.toNat % 16))

/-! ### Decimal digits -/

/-- The digits LD B stores, hundreds first (R165). -/
def bcdDigits (a : Byte) : List Byte :=
  [BitVec.ofNat 8 (a.toNat / 100), BitVec.ofNat 8 (a.toNat / 10 % 10), BitVec.ofNat 8 (a.toNat % 10)]

/-! ### Keys -/

/-- `is_held`: whether the key a register names is held; a value above 0x0F names no key and is not reduced (R181,
R182; decision D23). -/
def State.keyIsHeld (s : State) (code : Byte) : Bool :=
  if h : code.toNat < Config.nKeys then s.keyHeld[code.toNat]'h else false

end Sys2Proof.Machine
end

