-- ==== Sys2Proof/Machine/Ops.lean ====
section
/-! DEFINITION. The named operations every meaning is built from: reports (60_exceptions.md R230), the program counter
(10_state.md R25, R26), the call stack (R29), memory (20_memory.md R52 to R56), the fetch (30_encoding.md R80, R81) and
the display cells (10_state.md R33, 46_display.md R193). The hardware takes no exception and returns from none: there is
no trap, no vector, no saved register and no trap return (60_exceptions.md R231, R238); what it has instead is `raise`. -/

namespace Sys2Proof.Machine

/-- What a step answers. -/
abbrev StepOutcome := Host.Outcome State Fault Refusal

/-! ### Reports -/

/-- `raise K(info)`: append the report; it transfers no control and changes nothing else (R8, R230; log 3). -/
def State.raise (s : State) (r : Report) : State := { s with log := s.log ++ [r] }

/-! ### Program counter -/

/-- The normal advance `PC <- PC + 2` (R11, R26), `trunc_16` (R28). -/
def State.advance (s : State) : State := { s with pc := s.pc + 2 }

/-- "Skip means advancing PC by 4 instead of 2" (R12, R26); the skipped word is neither fetched nor decoded (R113(b);
decision D34). -/
def State.advanceSkipping (s : State) (skip : Bool) : State := { s with pc := s.pc + if skip then 4 else 2 }

/-- `PC <- target`; no target is checked when it is written (R118(c)). -/
def State.jumpTo (s : State) (target : Word16) : State := { s with pc := target }

/-! ### Registers -/

/-- The flag write `VF <- b`: 0x00 or 0x01 (R22). -/
def State.setFlag (s : State) (b : Bool) : State := s.setV vf (flagByte b)

/-- The end of every flag-writing arithmetic instruction: the result first, the flag second, so that with `x = 15` the
flag wins (R23; decision D11), then the normal advance. The operands were read before (R23). -/
def State.writeResultAndFlag (s : State) (x : Reg) (result : Byte) (flag : Bool) : State :=
  ((s.setV x result).setFlag flag).advance

/-! ### The single-purpose state elements (R38: each reached only by its own instructions and events) -/

/-- `I <- a` (R24). -/
def State.setI (s : State) (a : Word16) : State := { s with i := a }

/-- `DT <- a` (R31). -/
def State.setDt (s : State) (a : Byte) : State := { s with dt := a }

/-- `ST <- a` (R31). -/
def State.setSt (s : State) (a : Byte) : State := { s with st := a }

/-- The whole memory replaced (R32). -/
def State.setMem (s : State) (m : Memory) : State := { s with mem := m }

/-- The whole display replaced (R33). -/
def State.setDisp (s : State) (d : Display) : State := { s with disp := d }

/-- `REDRAW <- b` (R35). -/
def State.setRedraw (s : State) (b : Bool) : State := { s with redraw := b }

/-- `KEY_PENDING <- k` (R36). -/
def State.setPending (s : State) (k : Option Nibble) : State := { s with keyPending := k }

/-- `KEY_HELD[code] <- b`; a code above 0x0F names no key (R37, R205, R206; decision D24). -/
def State.setHeld (s : State) (code : Nat) (b : Bool) : State :=
  { s with keyHeld := if h : code < Config.nKeys then s.keyHeld.set code b h else s.keyHeld }

/-- The argument of a step event, latched (R204; log 2). -/
def State.setRand (s : State) (r : Byte) : State := { s with rand := r }

/-- One more free random byte is drawn (log 2). -/
def State.countDraw (s : State) : State := { s with draws := s.draws + 1 }

/-- The rest of the schedule (log 1). -/
def State.setSchedule (s : State) (es : List Event) : State := { s with schedule := es }

/-! ### Call stack -/

/-- Whether a push is refused: `len(STACK) >= STACK_DEPTH` (R29, R30, R111). -/
def State.stackFull (s : State) : Bool := decide (Config.stackDepth ≤ s.stack.length)

/-- `push(v)`: append (R29). -/
def State.push (s : State) (v : Word16) : State := { s with stack := s.stack ++ [v] }

/-- The stack without its last element (R29). -/
def State.dropTop (s : State) : State := { s with stack := s.stack.dropLast }

/-- `pop()`: the last element and the state without it; none when the stack is empty (R29). -/
def State.pop (s : State) : Option (Word16 × State) :=
  match s.stack.getLast? with
  | none => none
  | some v => some (v, s.dropTop)

/-! ### Memory contents -/

/-- The byte at an address: what the memory lists for it, else the reset contents. -/
def Memory.get (m : Memory) (a : Nat) : Byte :=
  match m.find? (fun c => c.1 == a) with
  | some c => c.2
  | none => resetByte a

/-- The memory that lists nothing for an address. -/
def Memory.erase (m : Memory) (a : Nat) : Memory := m.filter (fun c => c.1 != a)

/-- Put a cell in its place by address. -/
def Memory.insert (a : Nat) (v : Byte) : Memory → Memory
  | [] => [(a, v)]
  | c :: rest => if a < c.1 then (a, v) :: c :: rest else c :: Memory.insert a v rest

/-- Store a byte; writing what an unlisted address reads as removes the entry. -/
def Memory.set (m : Memory) (a : Nat) (v : Byte) : Memory :=
  if v = resetByte a then m.erase a else Memory.insert a v (m.erase a)

/-- Whether an address exists: 0 to `MEM_SIZE`-1 (R50). -/
def addrExists (a : Nat) : Bool := decide (a < Config.memSize)

/-- Whether an instruction may write an address: user program space only (R54, R66; decision D19, conflict C1). -/
def addrWritable (a : Nat) : Bool := decide (Config.progBase ≤ a) && decide (a < Config.memSize)

/-- The raw write of reset and load, refused only outside memory (R52): no byte of a program image is left out by
`eventLoad`, which checks the length first. -/
def Memory.rawWrite (m : Memory) (a : Nat) (v : Byte) : Memory := if addrExists a then m.set a v else m

/-- The raw write of consecutive bytes from an address on (R203). -/
def Memory.rawWriteBytes : Memory → Nat → List Byte → Memory
  | m, _, [] => m
  | m, a, b :: rest => Memory.rawWriteBytes (m.rawWrite a b) (a + 1) rest

/-! ### The access primitives of instructions -/

/-- `MemRead(addr, 1)`: the byte, or the report and no byte (R53). -/
def State.memRead (s : State) (a : Nat) : Option Byte × State :=
  if addrExists a then (some (s.mem.get a), s) else (none, s.raise (.memOutOfRange .read a))

/-- `MemWrite(addr, 1, v)`: the byte is stored, or the report is raised and memory is unchanged (R54). -/
def State.memWrite (s : State) (a : Nat) (v : Byte) : State :=
  if addrWritable a then s.setMem (s.mem.set a v) else s.raise (.memOutOfRange .write a)

/-- `MemWrite` of consecutive bytes from an address on, in ascending order; a refused access is skipped alone and the
others are performed (R56; decision D18). -/
def State.memWriteBytes : State → Nat → List Byte → State
  | s, _, [] => s
  | s, a, b :: rest => State.memWriteBytes (s.memWrite a b) (a + 1) rest

/-- One register of LD Vx,[I]: the byte read, or the old value when the read is refused (R56, R167). -/
def State.loadReg (s : State) (k : Reg) (a : Nat) : State :=
  match s.memRead a with
  | (some b, s') => s'.setV k b
  | (none, s') => s'

/-- Registers loaded from consecutive addresses in ascending order (R167). -/
def State.loadRegs : State → Nat → List Reg → State
  | s, _, [] => s
  | s, a, k :: rest => State.loadRegs (s.loadReg k a) (a + 1) rest

/-! ### Fetch -/

/-- Whether both bytes at PC exist: `PC + 1 < MEM_SIZE`, computed without truncation (R55, R80, R81). -/
def State.canFetch (s : State) : Bool := decide (s.pc.toNat + 1 < Config.memSize)

/-- The instruction word at PC, high byte at PC, at either parity (R57, R59, R80). -/
def State.fetchWord (s : State) : Word16 := joinBytes (s.mem.get s.pc.toNat) (s.mem.get (s.pc.toNat + 1))

/-- The fetch: the word, or none when it is refused; it changes no state (R80, R81). -/
def State.fetch (s : State) : Option Word16 := if s.canFetch then some s.fetchWord else none

/-- Store a word where the fetch will read it, high byte first. -/
def Memory.setWord (m : Memory) (a : Nat) (w : Word16) : Memory := (m.set a (highByte w)).set (a + 1) (lowByte w)

/-- The address a program counter fetches from, or the entry point if it fetches from nowhere (log 11). -/
def fetchableOr (pc : Word16) : Word16 :=
  if pc.toNat + 1 < Config.memSize then pc else BitVec.ofNat 16 Config.progBase

/-! ### Display cells -/

/-- `DISP[y][x]`; off outside the grid (R33, R193, R211; decision D35). -/
def Display.cell (d : Display) (x y : Nat) : Bool :=
  if h : x < Config.dispW ∧ y < Config.dispH then (d[y]'h.2)[x]'h.1 else false

/-- `DISP[y][x] <- b`; nothing outside the grid, which the engine never names (R193). -/
def Display.setCell (d : Display) (x y : Nat) (b : Bool) : Display :=
  if h : x < Config.dispW ∧ y < Config.dispH then d.set y ((d[y]'h.2).set x b h.1) h.2 else d

/-- `DISP[y][x] <- DISP[y][x] ^ 1` (R191). -/
def Display.flipCell (d : Display) (x y : Nat) : Display := d.setCell x y (!d.cell x y)

end Sys2Proof.Machine
end

