-- ==== Sys2Proof/Machine/ControlFlow.lean ====
section
/-! DEFINITION. The control flow instructions of 40_control_flow.md (R110 to R118). None has a delay slot, and none
checks its target (R118). -/

namespace Sys2Proof.Machine

/-- JP addr: `PC <- zext_16(nnn)` (R110). -/
def execJp (nnn : Addr12) (s : State) : StepOutcome := .next (s.jumpTo (zextAddr nnn))

/-- CALL addr: push PC + 2 and jump; on a full stack report and change nothing (R111; decision D6). -/
def execCall (nnn : Addr12) (s : State) : StepOutcome :=
  if s.stackFull then .next (s.raise (.stackOverflow s.pc))
  else .next ((s.push (s.pc + 2)).jumpTo (zextAddr nnn))

/-- RET: `PC <- pop()`; on an empty stack report and change nothing (R112; decision D7). -/
def execRet (s : State) : StepOutcome :=
  match s.pop with
  | none => .next (s.raise (.stackUnderflow s.pc))
  | some (target, s') => .next (s'.jumpTo target)

/-- SE Vx, byte: skip if equal (R113). -/
def execSeImm (x : Reg) (nn : Byte) (s : State) : StepOutcome := .next (s.advanceSkipping (s.getV x == nn))

/-- SNE Vx, byte: skip if not equal (R114). -/
def execSneImm (x : Reg) (nn : Byte) (s : State) : StepOutcome := .next (s.advanceSkipping (s.getV x != nn))

/-- SE Vx, Vy: skip if registers equal (R115). -/
def execSeReg (x y : Reg) (s : State) : StepOutcome := .next (s.advanceSkipping (s.getV x == s.getV y))

/-- SNE Vx, Vy: skip if registers not equal (R116). -/
def execSneReg (x y : Reg) (s : State) : StepOutcome := .next (s.advanceSkipping (s.getV x != s.getV y))

/-- JP V0, addr: `PC <- zext_16(nnn) + zext_16(V[0])`, not reduced to 12 bits (R117; decision D8). -/
def execJpV0 (nnn : Addr12) (s : State) : StepOutcome := .next (s.jumpTo (zextAddr nnn + zextByte (s.getV 0)))

end Sys2Proof.Machine
end

