-- ==== Sys2Proof/Machine/Display.lean ====
section
/-! DEFINITION. The display instructions of 46_display.md (R190 to R193). -/

namespace Sys2Proof.Machine

/-- CLS: every cell off, `REDRAW` set whether or not any was on, VF not written (R190, R192; decision D21). -/
def execCls (s : State) : StepOutcome := .next ((s.setDisp Display.clear).setRedraw true).advance

/-- One sprite bit: column `c` of a row byte, most significant bit first. A 1 inverts the cell at
`((vx + c) mod DISP_W, y mod DISP_H)` and records an on-to-off transition in the set-once collision flag (R191). -/
def drawBit (vx y : Nat) (b : Byte) (acc : Display × Bool) (c : Nat) : Display × Bool :=
  if b.getLsbD (7 - c) then
    (acc.1.flipCell ((vx + c) % Config.dispW) (y % Config.dispH),
      acc.2 || acc.1.cell ((vx + c) % Config.dispW) (y % Config.dispH))
  else acc

/-- The eight columns of one sprite row, leftmost first (R191). -/
def drawByte (vx y : Nat) (b : Byte) (acc : Display × Bool) : Display × Bool :=
  (List.range 8).foldl (drawBit vx y b) acc

/-- One sprite row: the byte at `I + r` drawn at row `vy + r`; a refused read draws nothing (R56, R191). -/
def drawRow (vx vy : Nat) (acc : State × Bool) (r : Nat) : State × Bool :=
  match acc.1.memRead (acc.1.blockAddr r) with
  | (none, s') => (s', acc.2)
  | (some b, s') =>
    let drawn := drawByte vx (vy + r) b (s'.disp, acc.2)
    (s'.setDisp drawn.1, drawn.2)

/-- The `n` rows of a sprite, top row first: the state and the collision flag (R191). -/
def drawSprite (vx vy : Nat) (n : Nat) (s : State) : State × Bool := (List.range n).foldl (drawRow vx vy) (s, false)

/-- DRW Vx, Vy, nibble: both coordinates are read before VF is written; VF = collision, `REDRAW` set by every DRW (R191,
R192; decisions D11, D21). -/
def execDrw (x y : Reg) (n : Nibble) (s : State) : StepOutcome :=
  let drawn := drawSprite (s.getV x).toNat (s.getV y).toNat n.toNat s
  .next ((drawn.1.setFlag drawn.2).setRedraw true).advance

end Sys2Proof.Machine
end

