-- ==== Sys2Proof/Machine/IndexTimers.lean ====
section
/-! DEFINITION. The index register and timer instructions of 42_index_timers.md (R150 to R155). None accesses memory
and none raises a report. -/

namespace Sys2Proof.Machine

/-- LD I, addr (R150). -/
def execLdI (nnn : Addr12) (s : State) : StepOutcome := .next (s.setI (zextAddr nnn)).advance

/-- ADD I, Vx: `trunc_16(I + zext_16(V[x]))`, VF not written (R151; decision D14). -/
def execAddI (x : Reg) (s : State) : StepOutcome := .next (s.setI (s.i + zextByte (s.getV x))).advance

/-- LD Vx, DT (R152). -/
def execLdVxDt (x : Reg) (s : State) : StepOutcome := .next (s.setV x s.dt).advance

/-- LD DT, Vx (R153). -/
def execLdDtVx (x : Reg) (s : State) : StepOutcome := .next (s.setDt (s.getV x)).advance

/-- LD ST, Vx; the signal to the audio collaborator is the level output `soundOn` (R154; decision D29). -/
def execLdStVx (x : Reg) (s : State) : StepOutcome := .next (s.setSt (s.getV x)).advance

/-- LD F, Vx: `I <- FONT_BASE + 5 * V[x][3:0]` (R155). -/
def execLdF (x : Reg) (s : State) : StepOutcome := .next (s.setI (glyphAddr (s.getV x))).advance

end Sys2Proof.Machine
end

