-- ==== Sys2Proof/Machine/Input.lean ====
section
/-! DEFINITION. The keypad instructions of 45_input.md (R180 to R182). -/

namespace Sys2Proof.Machine

/-- LD Vx, K: the pending key, which is consumed; with none pending a stall that changes nothing (R180, R245). -/
def execLdVxK (x : Reg) (s : State) : StepOutcome :=
  match s.keyPending with
  | none => .next s
  | some k => .next ((s.setV x (zextNibble k)).setPending none).advance

/-- SKP Vx: skip if the key is held (R181). -/
def execSkp (x : Reg) (s : State) : StepOutcome := .next (s.advanceSkipping (s.keyIsHeld (s.getV x)))

/-- SKNP Vx: skip if the key is not held (R182). -/
def execSknp (x : Reg) (s : State) : StepOutcome := .next (s.advanceSkipping (!s.keyIsHeld (s.getV x)))

end Sys2Proof.Machine
end

