-- ==== Sys2Proof/Machine/LoadArith.lean ====
section
/-! DEFINITION. The load, logic and arithmetic instructions of 41_load_arith.md (R130 to R141). Every operand is read
before any write, and a flag is written after the result (10_state.md R23). -/

namespace Sys2Proof.Machine

/-- LD Vx, byte (R130). -/
def execLdImm (x : Reg) (nn : Byte) (s : State) : StepOutcome := .next (s.setV x nn).advance

/-- ADD Vx, byte: 8-bit wraparound, VF not written (R131). -/
def execAddImm (x : Reg) (nn : Byte) (s : State) : StepOutcome := .next (s.setV x (sum8 (s.getV x) nn)).advance

/-- LD Vx, Vy (R132). -/
def execLdReg (x y : Reg) (s : State) : StepOutcome := .next (s.setV x (s.getV y)).advance

/-- OR Vx, Vy: VF unchanged (R133; decision D12). -/
def execOrReg (x y : Reg) (s : State) : StepOutcome := .next (s.setV x (s.getV x ||| s.getV y)).advance

/-- AND Vx, Vy: VF unchanged (R134; decision D12). -/
def execAndReg (x y : Reg) (s : State) : StepOutcome := .next (s.setV x (s.getV x &&& s.getV y)).advance

/-- XOR Vx, Vy: VF unchanged (R135; decision D12). -/
def execXorReg (x y : Reg) (s : State) : StepOutcome := .next (s.setV x (s.getV x ^^^ s.getV y)).advance

/-- ADD Vx, Vy: the sum, then VF = carry (R136). -/
def execAddReg (x y : Reg) (s : State) : StepOutcome :=
  .next (s.writeResultAndFlag x (sum8 (s.getV x) (s.getV y)) (carry (s.getV x) (s.getV y)))

/-- SUB Vx, Vy: `V[x]` is the minuend; VF = not-borrow (R137). -/
def execSub (x y : Reg) (s : State) : StepOutcome :=
  .next (s.writeResultAndFlag x (difference8 (s.getV x) (s.getV y)) (notBorrow (s.getV x) (s.getV y)))

/-- SHR Vx: `V[x]` shifted in place, VF = old bit 0; the `y` field is not used (R138; decision D13). -/
def execShr (x : Reg) (s : State) : StepOutcome :=
  .next (s.writeResultAndFlag x (shiftRight1 (s.getV x)) (shiftedOutRight (s.getV x)))

/-- SUBN Vx, Vy: `V[y]` is the minuend; VF = not-borrow (R139). -/
def execSubn (x y : Reg) (s : State) : StepOutcome :=
  .next (s.writeResultAndFlag x (difference8 (s.getV y) (s.getV x)) (notBorrow (s.getV y) (s.getV x)))

/-- SHL Vx: `V[x]` shifted in place, VF = old bit 7; the `y` field is not used (R140; decision D13). -/
def execShl (x : Reg) (s : State) : StepOutcome :=
  .next (s.writeResultAndFlag x (shiftLeft1 (s.getV x)) (shiftedOutLeft (s.getV x)))

end Sys2Proof.Machine
end

