-- ==== Sys2Proof/Machine/MemoryBlock.lean ====
section
/-! DEFINITION. The memory block transfers of 43_memory_block.md (R165 to R168). `I` is unchanged by all three (R168;
decision D17); a refused access is skipped alone (20_memory.md R56). -/

namespace Sys2Proof.Machine

/-- LD B, Vx: the decimal digits of `V[x]` at `I`, `I+1`, `I+2` (R165). -/
def execLdB (x : Reg) (s : State) : StepOutcome :=
  .next (s.memWriteBytes (s.blockAddr 0) (bcdDigits (s.getV x))).advance

/-- LD [I], Vx: register `k` to address `I + k`, for `k` in 0..x (R166). -/
def execLdMemVx (x : Reg) (s : State) : StepOutcome :=
  .next (s.memWriteBytes (s.blockAddr 0) ((regsUpTo x).map s.getV)).advance

/-- LD Vx, [I]: register `k` from address `I + k`, for `k` in 0..x (R167). -/
def execLdVxMem (x : Reg) (s : State) : StepOutcome := .next (s.loadRegs (s.blockAddr 0) (regsUpTo x)).advance

end Sys2Proof.Machine
end

