-- ==== Sys2Proof/Machine/Random.lean ====
section
/-! DEFINITION. The random number instruction of 44_random.md (R175). -/

namespace Sys2Proof.Machine

/-- RND Vx, byte: `V[x] <- rand & nn`, `rand` being the argument of this step event (R175, R204; decision D25, log 2). -/
def execRnd (x : Reg) (nn : Byte) (s : State) : StepOutcome := .next (s.setV x (s.rand &&& nn)).advance

end Sys2Proof.Machine
end

