-- ==== Sys2Proof/Machine/Events.lean ====
section
/-! DEFINITION. The effects of the events other than `step` (50_interfaces.md R203 to R208, 60_exceptions.md R240,
70_reset_and_hazards.md R260). Each is one indivisible transition (R202). -/

namespace Sys2Proof.Machine

/-- `reset`: every component takes its reset value (R260). What is not the machine's own, the outside's schedule, the
random bytes and the log of reports, survives (log 1, 2, 3). -/
def eventReset (s : State) : State :=
  { State.reset with rand := s.rand, draws := s.draws, log := s.log, schedule := s.schedule }

/-- `load(image)`: the image is written from `PROG_BASE` on and nothing else changes; an image that does not fit changes
nothing and is reported (R203; decision D28). -/
def eventLoad (image : List Byte) (s : State) : State :=
  if imageFits image then s.setMem (s.mem.rawWriteBytes Config.progBase image)
  else s.raise (.loadTooLarge image.length)

/-- One timer tick: toward zero, never below (R240). -/
def countDown (t : Byte) : Byte := if 0 < t.toNat then t - 1 else t

/-- `tick`: both timers in the same event, nothing else (R240). -/
def eventTick (s : State) : State := (s.setDt (countDown s.dt)).setSt (countDown s.st)

/-- `key_down(code)`: the key becomes the pending one and is held; a code above 0x0F is ignored (R205). -/
def eventKeyDown (code : Nat) (s : State) : State :=
  if keyCodeValid code then (s.setHeld code true).setPending (some (BitVec.ofNat 4 code)) else s

/-- `key_up(code)`: the key is no longer held; the pending key is not changed (R206). -/
def eventKeyUp (code : Nat) (s : State) : State := if keyCodeValid code then s.setHeld code false else s

/-- `redraw_ack`: `REDRAW <- 0` (R208). -/
def eventRedrawAck (s : State) : State := s.setRedraw false

end Sys2Proof.Machine
end

