-- ==== Sys2Proof/Machine/Unknown.lean ====
section
/-! DEFINITION. The execution of an unknown word (30_encoding.md R88, R89). -/

namespace Sys2Proof.Machine

/-- UNKNOWN: the report, then PC + 2; "reported, PC still advances by 2 (treat as a consumed no-op)" (R89). -/
def execUnknown (w : Word16) (s : State) : StepOutcome := .next (s.raise (.unknownOpcode w)).advance

/-- A refused fetch: the report and nothing else, PC keeps its value (R81; decision D4). -/
def execNoFetch (s : State) : StepOutcome := .next (s.raise (.fetchOutOfRange s.pc))

end Sys2Proof.Machine
end

