-- ==== Sys2Proof/Machine/Step.lean ====
section
/-! DEFINITION. One transition of the machine: the step event (50_interfaces.md R204), the application of any event
(R200), and the step of the model, which takes the next event of the schedule (log 1). -/

namespace Sys2Proof.Machine

/-- What a fetched word does (R84, R204): its instruction's rule, or R89. -/
def execWord (w : Word16) (s : State) : StepOutcome :=
  match decode w with
  | .known i => exec i s
  | .unknown w' => execUnknown w' s

/-- The body of a step event: fetch check first, then decode, then execute (R204, R234). -/
def fetchDecodeExecute (s : State) : StepOutcome :=
  match s.fetch with
  | none => execNoFetch s
  | some w => execWord w s

/-- `step(rand)`: the argument is latched for RND, then exactly one instruction is executed, or none when the fetch is
refused (R204). -/
def stepEvent (rand : Byte) (s : State) : StepOutcome := fetchDecodeExecute (s.setRand rand)

/-- One event, applied whole (R200, R202). -/
def applyEvent (e : Event) (s : State) : StepOutcome :=
  match e with
  | .reset => .next (eventReset s)
  | .load image => .next (eventLoad image s)
  | .step rand => stepEvent rand s
  | .tick => .next (eventTick s)
  | .keyDown code => .next (eventKeyDown code s)
  | .keyUp code => .next (eventKeyUp code s)
  | .redrawAck => .next (eventRedrawAck s)

/-- One transition: the next event of the schedule; when the schedule is empty, a step event with the next free random
byte (R202, R204; log 1, log 2). -/
def step (s : State) : Host.Outcome State Fault Refusal :=
  match s.schedule with
  | [] => stepEvent (Config.freeRand s.draws) s.countDraw
  | e :: rest => applyEvent e (s.setSchedule rest)

/-- The state with the word of an instruction stored where the very next step fetches (log 11): at PC, high byte first
(R57); if nothing can be fetched at PC (R81), PC becomes the entry point; no other event comes first. -/
def State.withFetchWord (s : State) (nbits w : Nat) : State :=
  { s with
    pc := fetchableOr s.pc
    mem := s.mem.setWord (fetchableOr s.pc).toNat (BitVec.ofNat 16 (w % 2 ^ nbits))
    schedule := [] }

end Sys2Proof.Machine
end

