-- ==== Sys2Proof/Machine/Outputs.lean ====
section
/-! DEFINITION. The outputs: functions of the state that the outside may read between events; reading changes nothing
(50_interfaces.md R209 to R212). -/

namespace Sys2Proof.Machine

/-- `pixel(x, y)`: the cell, 0 outside the grid (R211; decision D35). -/
def State.pixel (s : State) (x y : Nat) : Bool := s.disp.cell x y

/-- `redraw` (R209). -/
def State.redrawOut (s : State) : Bool := s.redraw

/-- `sound_on`: 1 exactly when `ST != 0` (R212; decision D29). -/
def State.soundOn (s : State) : Bool := s.st != 0

/-- The report list of what happened between two states of a run (R210): the log only grows. -/
def reportsBetween (before after : State) : List Report := after.log.drop before.log.length

end Sys2Proof.Machine
end

