-- ==== Sys2Proof/Safety.lean ====
section
/-! DEFINITION. The terms claims are stated in: the parts of the state and what it means that only some of them change;
which instruction may change or report what, read from the spec's own tables; the invariants of the machine; the runs
that are stalled, waiting or finished. -/

namespace Sys2Proof.Safety

open Sys2Proof.Machine

/-! ### Frames -/

/-- The parts of the state other than the general registers. -/
inductive Part where
  | index
  | pc
  | stack
  | delayTimer
  | soundTimer
  | memory
  | display
  | redraw
  | keyPending
  | keyHeld
  | reports
  | outside
  deriving DecidableEq, Repr

/-- Two states agree in a part: memory through the read of one byte, the display through the read of one cell. The part
`outside` is the model's own: the random byte, the count of draws and the schedule (log 1, 2). -/
def SameIn (s t : State) : Part → Prop
  | .index => t.i = s.i
  | .pc => t.pc = s.pc
  | .stack => t.stack = s.stack
  | .delayTimer => t.dt = s.dt
  | .soundTimer => t.st = s.st
  | .memory => ∀ a, t.mem.get a = s.mem.get a
  | .display => ∀ px py, t.pixel px py = s.pixel px py
  | .redraw => t.redraw = s.redraw
  | .keyPending => t.keyPending = s.keyPending
  | .keyHeld => ∀ k : Fin Config.nKeys, t.keyHeld[k] = s.keyHeld[k]
  | .reports => t.log = s.log
  | .outside => t.rand = s.rand ∧ t.draws = s.draws ∧ t.schedule = s.schedule

/-- From `s` to `t` only the registers `ks` and the parts `ps` may change: every other register and every other part is
as before. -/
def OnlyChanges (ks : List Reg) (ps : List Part) (s t : State) : Prop :=
  (∀ k, k ∉ ks → t.getV k = s.getV k) ∧ (∀ p, p ∉ ps → SameIn s t p)

/-! ### What each instruction may do, from the spec's tables -/

/-- The general registers an instruction may write: the write rows of the table of 10_state.md R21. -/
def regsWritten : Instr → List Reg
  | .ldImm x _ | .addImm x _ | .ldReg x _ | .orReg x _ | .andReg x _ | .xorReg x _ | .ldVxDt x | .rnd x _
  | .ldVxK x => [x]
  | .addReg x _ | .sub x _ | .shr x | .subn x _ | .shl x => [x, vf]
  | .drw _ _ _ => [vf]
  | .ldVxMem x => regsUpTo x
  | .cls | .ret | .jp _ | .call _ | .seImm _ _ | .sneImm _ _ | .seReg _ _ | .sneReg _ _ | .ldI _ | .jpV0 _
  | .skp _ | .sknp _ | .ldDtVx _ | .ldStVx _ | .addI _ | .ldF _ | .ldB _ | .ldMemVx _ => []

/-- The other parts an instruction may write: I by three instructions (R24), the stack by CALL and RET (R29), DT by LD
DT and ST by LD ST (R31), memory by LD B and LD [I],Vx (R60), the display by CLS and DRW (R33), `REDRAW` by the same
two (R35), `KEY_PENDING` by LD Vx,K (R36), the held keys by none (R37), reports by the instructions of R233. -/
def partsWritten : Instr → List Part
  | .cls => [.pc, .display, .redraw]
  | .drw _ _ _ => [.pc, .display, .redraw, .reports]
  | .ret | .call _ => [.pc, .stack, .reports]
  | .ldI _ | .addI _ | .ldF _ => [.pc, .index]
  | .ldDtVx _ => [.pc, .delayTimer]
  | .ldStVx _ => [.pc, .soundTimer]
  | .ldVxK _ => [.pc, .keyPending]
  | .ldB _ | .ldMemVx _ => [.pc, .memory, .reports]
  | .ldVxMem _ => [.pc, .reports]
  | .jp _ | .seImm _ _ | .sneImm _ _ | .seReg _ _ | .ldImm _ _ | .addImm _ _ | .ldReg _ _ | .orReg _ _
  | .andReg _ _ | .xorReg _ _ | .addReg _ _ | .sub _ _ | .shr _ | .subn _ _ | .shl _ | .sneReg _ _ | .jpV0 _
  | .rnd _ _ | .skp _ | .sknp _ | .ldVxDt _ => [.pc]

/-- Which reports an instruction can raise, and at most how many in one execution (60_exceptions.md R233). -/
def mayReport : Instr → Report → Prop
  | .call _, .stackOverflow _ => True
  | .ret, .stackUnderflow _ => True
  | .ldB _, .memOutOfRange .write _ => True
  | .ldMemVx _, .memOutOfRange .write _ => True
  | .ldVxMem _, .memOutOfRange .read _ => True
  | .drw _ _ _, .memOutOfRange .read _ => True
  | _, _ => False

/-- The greatest number of reports of one execution (R233). -/
def maxReports : Instr → Nat
  | .call _ | .ret => 1
  | .ldB _ => 3
  | .ldMemVx x | .ldVxMem x => x.toNat + 1
  | .drw _ _ n => n.toNat
  | .cls | .jp _ | .seImm _ _ | .sneImm _ _ | .seReg _ _ | .ldImm _ _ | .addImm _ _ | .ldReg _ _ | .orReg _ _
  | .andReg _ _ | .xorReg _ _ | .addReg _ _ | .sub _ _ | .shr _ | .subn _ _ | .shl _ | .sneReg _ _ | .ldI _
  | .jpV0 _ | .rnd _ _ | .skp _ | .sknp _ | .ldVxDt _ | .ldVxK _ | .ldDtVx _ | .ldStVx _ | .addI _ | .ldF _ => 0

/-- The reports of refused accesses, in the order of the accesses (R56, R234). -/
def refusals (kind : Access) (allowed : Nat → Bool) (addrs : List Nat) : List Report :=
  (addrs.filter (fun a => !allowed a)).map (Report.memOutOfRange kind)

/-- Whether a sprite of `n` rows at `I`, drawn from column `vx` and row `vy`, has a set bit that falls on the cell
`(px, py)` (46_display.md R191): row `r`, column `c`, the most significant bit leftmost, each coordinate reduced
separately, a row whose byte does not exist drawing nothing. -/
def SpriteCovers (s : State) (vx vy n px py : Nat) : Prop :=
  ∃ r c, r < n ∧ c < 8 ∧ s.blockAddr r < Config.memSize ∧ (s.mem.get (s.blockAddr r)).getLsbD (7 - c) = true ∧
    px = (vx + c) % Config.dispW ∧ py = (vy + r) % Config.dispH

/-! ### Invariants -/

/-- Memory is in its one canonical form. -/
def MemoryCanonical (s : State) : Prop := s.mem.wf = true

/-- The reserved region still holds its reset contents: the font and zeros (20_memory.md R51, R54, R66). -/
def ReservedIntact (s : State) : Prop := ∀ a, a < Config.progBase → s.mem.get a = resetByte a

/-- The call stack is within its capacity (10_state.md R29, R30). -/
def StackBounded (s : State) : Prop := s.stack.length ≤ Config.stackDepth

/-- "PC is 16 bits wide but no reachable computation overflows it": PC is at most 0x10FE and every return address at
most `MEM_SIZE` (10_state.md R28). -/
def PcBounded (s : State) : Prop := s.pc.toNat ≤ 0x10FE ∧ ∀ r ∈ s.stack, r.toNat ≤ Config.memSize

/-! ### Runs -/

/-- No report was raised: "no fault recorded" (93_implementation_defined.md U5, U6; R210). -/
def NoReport (s : State) : Prop := s.log = []

/-- The three conditions that recur on every following step until a reset, "a fault state that is never a final
(successful) state" (60_exceptions.md R236): the fetch is refused, or the instruction at PC is a RET with an empty stack
or a CALL with a full one. -/
def Stalled (s : State) : Prop :=
  s.canFetch = false ∨
  (s.canFetch = true ∧ decode s.fetchWord = .known .ret ∧ s.stack = []) ∨
  (s.canFetch = true ∧ (∃ nnn, decode s.fetchWord = .known (.call nnn)) ∧ s.stackFull = true)

/-- The wait state (R245): the instruction at PC is LD Vx,K and no key is pending; a hang, not a final state. -/
def Waiting (s : State) : Prop :=
  s.canFetch = true ∧ (∃ x, decode s.fetchWord = .known (.ldVxK x)) ∧ s.keyPending = none

/-- DESIGN CHOICE (log 10). `END_OF_RUN` (50_interfaces.md R213, decision D37: "PC holds the address of a `JP` to itself
and no key wait is pending"): the instruction at PC is a JP to its own address. -/
def Finished (s : State) : Prop :=
  s.canFetch = true ∧ ∃ nnn, decode s.fetchWord = .known (.jp nnn) ∧ zextAddr nnn = s.pc

end Sys2Proof.Safety
end

