-- ==== Sys2Proof/Certificates/Slice0/Obligations.lean ====
section
/-! DEFINITION. The statements for the provers. Each docstring cites the rules of spec/ it rests on; where a clause rests
on one of the spec's own decisions (D<n> of 92_eei_decisions.md) or on a choice of the model (log <n>), it says so. -/

open Sys2Proof Sys2Proof.Machine Sys2Proof.Safety

/-! ### Encoding -/

/-- Nineteen words, one or more of each of the sixteen families of 30_encoding.md R86, written out from the bit patterns
of R83 and R85, decode to the instructions they stand for, and one more word is unknown (R88). The numeric encoding is the
spec's (decision D1, log 5). -/
def Obligations.WrittenWordsDecodeToTheirInstructions : Prop :=
  decode 0b0000000011100000#16 = .known .cls ∧
  decode 0b0000000011101110#16 = .known .ret ∧
  decode 0b0001001000110100#16 = .known (.jp 0x234) ∧
  decode 0b0010011000000000#16 = .known (.call 0x600) ∧
  decode 0b0011001100101010#16 = .known (.seImm 3 0x2A) ∧
  decode 0b0100001100101010#16 = .known (.sneImm 3 0x2A) ∧
  decode 0b0101000100101111#16 = .known (.seReg 1 2) ∧
  decode 0b0110101001111111#16 = .known (.ldImm 0xA 0x7F) ∧
  decode 0b0111001000100000#16 = .known (.addImm 2 0x20) ∧
  decode 0b1000000000010100#16 = .known (.addReg 0 1) ∧
  decode 0b1000010110100110#16 = .known (.shr 5) ∧
  decode 0b1001001100110101#16 = .known (.sneReg 3 3) ∧
  decode 0b1010001011110000#16 = .known (.ldI 0x2F0) ∧
  decode 0b1011001100000000#16 = .known (.jpV0 0x300) ∧
  decode 0b1100001100001111#16 = .known (.rnd 3 0x0F) ∧
  decode 0b1101000000010101#16 = .known (.drw 0 1 5) ∧
  decode 0b1110001010011110#16 = .known (.skp 2) ∧
  decode 0b1111011000001010#16 = .known (.ldVxK 6) ∧
  decode 0b1111001001010101#16 = .known (.ldMemVx 2) ∧
  decode 0b0000000100100011#16 = .unknown 0x0123

/-- Decode and encode agree: for every value of the parameter `JP_V0_IMPLEMENTED` (30_encoding.md R87) and every
instruction that is well formed under it, decoding its word gives it back; and decoding its two bytes, high byte first
(R57), leaves the bytes after them. -/
def Obligations.DecodingAnEncodedInstructionGivesItBack : Prop :=
  (∀ (jpV0 : Bool) (i : Instr), i.wellFormedUnder jpV0 = true → decodeUnder jpV0 (encode i) = .known i) ∧
  (∀ (i : Instr) (rest : List Byte), i.wellFormed = true →
    decodeBytes (encodeBytes i ++ rest) = .decoded (.known i) rest)

/-- The other direction: encoding what a word decodes to gives the word with the bits the decoder ignores cleared
(30_encoding.md R90, R92), so no other bit of a word is dropped. -/
def Obligations.EncodingADecodedWordClearsOnlyIgnoredBits : Prop :=
  ∀ (w : Word16) (i : Instr), decode w = .known i → encode i = w &&& ~~~ i.ignoredBits

/-- The unknown words are exactly the four sets of 30_encoding.md R88 (decision D9), and the sentinel carries the word
itself. -/
def Obligations.UnknownWordsAreTheFourSets : Prop :=
  ∀ w : Word16,
    ((∃ w', decode w = .unknown w') ↔
      (fieldOp w = 0x0 ∧ w ≠ 0x00E0 ∧ w ≠ 0x00EE) ∨
      (fieldOp w = 0x8 ∧ fieldN w ∈ [0x8#4, 0x9#4, 0xA#4, 0xB#4, 0xC#4, 0xD#4, 0xF#4]) ∨
      (fieldOp w = 0xE ∧ fieldNN w ∉ [0x9E#8, 0xA1#8]) ∨
      (fieldOp w = 0xF ∧
        fieldNN w ∉ [0x07#8, 0x0A#8, 0x15#8, 0x18#8, 0x1E#8, 0x29#8, 0x33#8, 0x55#8, 0x65#8])) ∧
    ∀ w', decode w = .unknown w' → w' = w

/-- The decoder follows spec/opcode_table.json: a word decoded to an instruction selects that instruction's row of the
table and no other row, and an unknown word selects no row (INDEX.md; no two rows overlap). -/
def Obligations.DecoderAgreesWithTheOpcodeTable : Prop :=
  ∀ w : Word16,
    (∀ i, decode w = .known i →
      i.row ∈ opcodeTable ∧ i.row.selects w = true ∧ ∀ r ∈ opcodeTable, r.selects w = true → r = i.row) ∧
    (∀ w', decode w = .unknown w' → ∀ r ∈ opcodeTable, r.selects w = false)

/-! ### The step -/

/-- A step runs the decoded instruction (50_interfaces.md R204, 30_encoding.md R80): when both bytes at PC exist and
decode to `i`, the step is `exec i` at that state, with the argument of the step event latched: the next free random
byte when the schedule is empty, the scheduled event's own byte otherwise (log 1, log 2). -/
def Obligations.StepExecutesTheDecodedInstruction : Prop :=
  ∀ (s : State) (i : Instr), s.pc.toNat + 1 < Config.memSize →
    decode (s.mem.get s.pc.toNat ++ s.mem.get (s.pc.toNat + 1)) = .known i →
    (s.schedule = [] → step s = exec i { s with rand := Config.freeRand s.draws, draws := s.draws + 1 }) ∧
    (∀ r rest, s.schedule = .step r :: rest → step s = exec i { s with schedule := rest, rand := r })

/-- The step of the model is the next event of the schedule, or a step event when the schedule is empty; every event is
one transition (50_interfaces.md R200, R202; the schedule is the model's own, log 1). -/
def Obligations.StepAppliesTheNextEvent : Prop :=
  ∀ s : State,
    (s.schedule = [] →
      step s = applyEvent (.step (Config.freeRand s.draws)) { s with draws := s.draws + 1 }) ∧
    (∀ e rest, s.schedule = e :: rest → step s = applyEvent e { s with schedule := rest })

/-- A refused fetch (30_encoding.md, the rule on a fetch out of range; the spec's decision D4): when PC + 1 is not in
memory the step event reports `FetchOutOfRange(PC)` and nothing else changes, PC included. -/
def Obligations.FetchPastTheEndOnlyReports : Prop :=
  ∀ (r : Byte) (s : State), Config.memSize ≤ s.pc.toNat + 1 →
    ∃ t, applyEvent (.step r) s = .next t ∧ t.log = s.log ++ [.fetchOutOfRange s.pc] ∧
      OnlyChanges [] [.reports, .outside] s t ∧ t.draws = s.draws ∧ t.schedule = s.schedule

/-- An unknown word is a consumed no-op: one report with the word (the spec's decision D32 on what it carries), PC + 2,
and nothing else (30_encoding.md, executing an unknown word). -/
def Obligations.UnknownWordIsReportedAndSkipped : Prop :=
  ∀ (r : Byte) (s : State) (w : Word16), s.pc.toNat + 1 < Config.memSize →
    s.mem.get s.pc.toNat ++ s.mem.get (s.pc.toNat + 1) = w → decode w = .unknown w →
    ∃ t, applyEvent (.step r) s = .next t ∧ t.pc = s.pc + 2 ∧ t.log = s.log ++ [.unknownOpcode w] ∧
      OnlyChanges [] [.pc, .reports, .outside] s t ∧ t.draws = s.draws ∧ t.schedule = s.schedule

/-- Nothing stops the machine: from every state a transition gives a next state, and so does any number of transitions
of the host's core ("Nothing in the engine's normal operation is fatal", 60_exceptions.md R230; "The step always
returns", 50_interfaces.md R204). -/
def Obligations.EveryTransitionGivesANextState : Prop :=
  (∀ s : State, ∃ t, step s = .next t) ∧ (∀ (n : Nat) (s : State), ∃ t, Sys2Proof.core.run n s = .next t)

/-! ### Whole-machine rules -/

/-- What an instruction may change, over all 34 instructions at once: no general register outside the write rows of
10_state.md R21 (so VF only as flag or as named destination, R22), I only by its three instructions (R24), the stack
only by CALL and RET (R29), DT only by LD DT and ST only by LD ST (R31, 50_interfaces.md R204), memory only by LD B and
LD [I],Vx (20_memory.md R60), the display and `REDRAW` only by CLS and DRW (R33, R35), `KEY_PENDING` only by LD Vx,K
(R36), the held keys by none (R37), and the model's own random byte, draw count and schedule by none (log 1, log 2). -/
def Obligations.InstructionsChangeOnlyWhatTheTablesList : Prop :=
  ∀ (i : Instr) (s t : State), exec i s = .next t → OnlyChanges (regsWritten i) (partsWritten i) s t

/-- Which instruction can raise what, and how often (60_exceptions.md, which instruction can raise what): the reports
of one execution are appended to the log, each of a kind the table gives the instruction, and at most as many. -/
def Obligations.InstructionsRaiseOnlyTheirOwnReports : Prop :=
  ∀ (i : Instr) (s t : State), exec i s = .next t →
    ∃ rs, t.log = s.log ++ rs ∧ rs.length ≤ maxReports i ∧ ∀ r ∈ rs, mayReport i r

/-- "The program cannot observe that a report was raised" (60_exceptions.md R231): an instruction does the same from a
state that differs only in the reports raised before, and its own reports are the same. -/
def Obligations.ReportsAreNotObservable : Prop :=
  ∀ (i : Instr) (s t : State) (earlier : List Report), exec i s = .next t →
    exec i { s with log := earlier ++ s.log } = .next { t with log := earlier ++ t.log }

/-- Only RND reads the random byte of the step (44_random.md R175(e), decision D25): every other instruction does the
same whatever it is. The random byte is a free value, so this holds for every value of it. -/
def Obligations.OnlyRndReadsTheRandomByte : Prop :=
  ∀ (i : Instr) (s t : State) (r : Byte), (∀ x nn, i ≠ .rnd x nn) → exec i s = .next t →
    exec i { s with rand := r } = .next { t with rand := r }

/-! ### Invariants -/

/-- Every transition, whatever event it is, keeps memory in its one canonical form (the model's own form of the memory
of 20_memory.md R50). -/
def Obligations.TransitionsKeepMemoryCanonical : Prop :=
  ∀ s t : State, MemoryCanonical s → step s = .next t → MemoryCanonical t

/-- No transition, whatever event it is, alters the reserved region below 0x200: the font stays what it is
(20_memory.md R51, R54, R66 with decision D19; load writes from 0x200 on, R203; reset restores it, R260). -/
def Obligations.TransitionsKeepTheReservedRegion : Prop :=
  ∀ s t : State, ReservedIntact s → step s = .next t → ReservedIntact t

/-- Every transition keeps the call stack within its 16 entries (10_state.md R29, R30; the spec's decision D6). -/
def Obligations.TransitionsKeepTheStackBounded : Prop :=
  ∀ s t : State, StackBounded s → step s = .next t → StackBounded t

/-- "PC is 16 bits wide but no reachable computation overflows it" (10_state.md R28): every transition keeps PC at most
0x10FE and every return address at most 0x1000, so that no PC + 2 or PC + 4 is ever truncated. -/
def Obligations.TransitionsKeepPcInRange : Prop :=
  ∀ s t : State, PcBounded s → step s = .next t → PcBounded t

/-- The four invariants hold at reset, and at whatever state the reset event gives. -/
def Obligations.ResetMeetsTheInvariants : Prop :=
  (MemoryCanonical State.reset ∧ ReservedIntact State.reset ∧ StackBounded State.reset ∧ PcBounded State.reset) ∧
  ∀ s : State, ∃ t, applyEvent .reset s = .next t ∧
    MemoryCanonical t ∧ ReservedIntact t ∧ StackBounded t ∧ PcBounded t

/-- The log of reports only grows, in any transition (the model's own choice, log 3, after 50_interfaces.md R210: "a log
that nothing ever clears"). -/
def Obligations.ReportLogOnlyGrows : Prop :=
  ∀ s t : State, step s = .next t → ∃ rs, t.log = s.log ++ rs

/-! ### Control flow -/

/-- JP addr (40_control_flow.md R110): PC takes the 12-bit target whatever it is, and nothing else changes; a target of
0xFFF leaves the next fetch out of range, and a jump to the instruction's own address leaves the state as it is. -/
def Obligations.JpSetsPcToItsTarget : Prop :=
  ∀ (nnn : Addr12) (s : State), decode (0x1#4 ++ nnn) = .known (.jp nnn) ∧
    ∃ t, exec (.jp nnn) s = .next t ∧ t.pc.toNat = nnn.toNat ∧ OnlyChanges [] [.pc] s t ∧
      (nnn = 0xFFF → t.fetch = none) ∧ (s.pc.toNat = nnn.toNat → t = s)

/-- JP V0, addr (40_control_flow.md, JP V0; the spec's decision D8): PC takes `nnn + V[0]`, not reduced to 12 bits. -/
def Obligations.JpV0AddsRegisterZero : Prop :=
  ∀ (nnn : Addr12) (s : State), decode (0xB#4 ++ nnn) = .known (.jpV0 nnn) ∧
    ∃ t, exec (.jpV0 nnn) s = .next t ∧ t.pc.toNat = nnn.toNat + (s.getV 0).toNat ∧ OnlyChanges [] [.pc] s t

/-- CALL addr with room on the stack (40_control_flow.md, CALL addr): PC + 2 is pushed, PC takes the target; on a full
stack (the spec's decision D6: 16 entries) it reports `StackOverflow(PC)` and changes nothing else. -/
def Obligations.CallPushesTheReturnAddress : Prop :=
  ∀ (nnn : Addr12) (s : State), decode (0x2#4 ++ nnn) = .known (.call nnn) ∧
    (s.stack.length < Config.stackDepth →
      ∃ t, exec (.call nnn) s = .next t ∧ t.stack = s.stack ++ [s.pc + 2] ∧ t.pc.toNat = nnn.toNat ∧
        OnlyChanges [] [.pc, .stack] s t) ∧
    (Config.stackDepth ≤ s.stack.length →
      ∃ t, exec (.call nnn) s = .next t ∧ t.log = s.log ++ [.stackOverflow s.pc] ∧ OnlyChanges [] [.reports] s t)

/-- RET (40_control_flow.md, RET): PC becomes exactly the last pushed value; on an empty stack (the spec's decision D7)
it reports `StackUnderflow(PC)` and changes nothing else. -/
def Obligations.RetPopsTheReturnAddress : Prop :=
  decode 0x00EE = .known .ret ∧
  (∀ (s : State) (rest : List Word16) (a : Word16), s.stack = rest ++ [a] →
    ∃ t, exec .ret s = .next t ∧ t.pc = a ∧ t.stack = rest ∧ OnlyChanges [] [.pc, .stack] s t) ∧
  (∀ s : State, s.stack = [] →
    ∃ t, exec .ret s = .next t ∧ t.log = s.log ++ [.stackUnderflow s.pc] ∧ OnlyChanges [] [.reports] s t)

/-- A balanced CALL and RET (40_control_flow.md, RET, corner case (b)): whatever ran in between, if it left the stack as
the CALL left it, RET continues after the CALL with the stack the CALL found. -/
def Obligations.RetAfterCallContinuesAfterTheCall : Prop :=
  ∀ (nnn : Addr12) (s : State), s.stack.length < Config.stackDepth →
    ∃ t, exec (.call nnn) s = .next t ∧ ∀ u : State, u.stack = t.stack →
      ∃ v, exec .ret u = .next v ∧ v.pc = s.pc + 2 ∧ v.stack = s.stack

/-- SE Vx, byte and SNE Vx, byte (40_control_flow.md R113, R114): PC advances by 4 instead of 2 when the register and
the immediate are equal, respectively not equal, and nothing else changes. -/
def Obligations.ImmediateSkipsCompareWithTheByte : Prop :=
  ∀ (x : Reg) (nn : Byte) (s : State),
    decode (0x3#4 ++ x ++ nn) = .known (.seImm x nn) ∧ decode (0x4#4 ++ x ++ nn) = .known (.sneImm x nn) ∧
    (∃ t, exec (.seImm x nn) s = .next t ∧ t.pc = s.pc + (if (s.getV x).toNat = nn.toNat then 4 else 2) ∧
      OnlyChanges [] [.pc] s t) ∧
    (∃ t, exec (.sneImm x nn) s = .next t ∧ t.pc = s.pc + (if (s.getV x).toNat = nn.toNat then 2 else 4) ∧
      OnlyChanges [] [.pc] s t)

/-- SE Vx, Vy and SNE Vx, Vy (40_control_flow.md, the two register skips), whatever the low nibble of the word is (the
spec's decision D10). -/
def Obligations.RegisterSkipsCompareTheRegisters : Prop :=
  ∀ (x y : Reg) (n : Nibble) (s : State),
    decode (0x5#4 ++ x ++ y ++ n) = .known (.seReg x y) ∧ decode (0x9#4 ++ x ++ y ++ n) = .known (.sneReg x y) ∧
    (∃ t, exec (.seReg x y) s = .next t ∧ t.pc = s.pc + (if (s.getV x).toNat = (s.getV y).toNat then 4 else 2) ∧
      OnlyChanges [] [.pc] s t) ∧
    (∃ t, exec (.sneReg x y) s = .next t ∧ t.pc = s.pc + (if (s.getV x).toNat = (s.getV y).toNat then 2 else 4) ∧
      OnlyChanges [] [.pc] s t)

/-! ### Load, logic and arithmetic -/

/-- LD Vx, byte (41_load_arith.md R130). -/
def Obligations.LdImmediateLoadsTheByte : Prop :=
  ∀ (x : Reg) (nn : Byte) (s : State), decode (0x6#4 ++ x ++ nn) = .known (.ldImm x nn) ∧
    ∃ t, exec (.ldImm x nn) s = .next t ∧ t.getV x = nn ∧ t.pc = s.pc + 2 ∧ OnlyChanges [x] [.pc] s t

/-- ADD Vx, byte (41_load_arith.md R131): 8-bit wraparound; VF is not written unless it is the destination. -/
def Obligations.AddImmediateWrapsWithoutFlag : Prop :=
  ∀ (x : Reg) (nn : Byte) (s : State), decode (0x7#4 ++ x ++ nn) = .known (.addImm x nn) ∧
    ∃ t, exec (.addImm x nn) s = .next t ∧ (t.getV x).toNat = ((s.getV x).toNat + nn.toNat) % 256 ∧
      t.pc = s.pc + 2 ∧ OnlyChanges [x] [.pc] s t

/-- LD Vx, Vy (41_load_arith.md R132). -/
def Obligations.LdRegisterCopies : Prop :=
  ∀ (x y : Reg) (s : State), decode (0x8#4 ++ x ++ y ++ 0x0#4) = .known (.ldReg x y) ∧
    ∃ t, exec (.ldReg x y) s = .next t ∧ t.getV x = s.getV y ∧ t.pc = s.pc + 2 ∧ OnlyChanges [x] [.pc] s t

/-- OR, AND, XOR (41_load_arith.md, the three logic operations): bit by bit, VF not written unless it is the destination
(the spec's decision D12). -/
def Obligations.LogicOperationsActBitwiseWithoutFlag : Prop :=
  ∀ (x y : Reg) (s : State),
    decode (0x8#4 ++ x ++ y ++ 0x1#4) = .known (.orReg x y) ∧
    decode (0x8#4 ++ x ++ y ++ 0x2#4) = .known (.andReg x y) ∧
    decode (0x8#4 ++ x ++ y ++ 0x3#4) = .known (.xorReg x y) ∧
    (∃ t, exec (.orReg x y) s = .next t ∧
      (∀ j, (t.getV x).getLsbD j = ((s.getV x).getLsbD j || (s.getV y).getLsbD j)) ∧
      t.pc = s.pc + 2 ∧ OnlyChanges [x] [.pc] s t) ∧
    (∃ t, exec (.andReg x y) s = .next t ∧
      (∀ j, (t.getV x).getLsbD j = ((s.getV x).getLsbD j && (s.getV y).getLsbD j)) ∧
      t.pc = s.pc + 2 ∧ OnlyChanges [x] [.pc] s t) ∧
    (∃ t, exec (.xorReg x y) s = .next t ∧
      (∀ j, (t.getV x).getLsbD j = ((s.getV x).getLsbD j ^^ (s.getV y).getLsbD j)) ∧
      t.pc = s.pc + 2 ∧ OnlyChanges [x] [.pc] s t)

/-- ADD Vx, Vy (41_load_arith.md, ADD Vx, Vy): VF is the carry of the exact sum, and the result register holds the sum
modulo 256 unless it is VF itself, where the flag wins (10_state.md, the order of result and flag, the spec's decision
D11). -/
def Obligations.AddRegistersSetsTheCarry : Prop :=
  ∀ (x y : Reg) (s : State), decode (0x8#4 ++ x ++ y ++ 0x4#4) = .known (.addReg x y) ∧
    ∃ t, exec (.addReg x y) s = .next t ∧
      t.getV vf = (if 255 < (s.getV x).toNat + (s.getV y).toNat then 1 else 0) ∧
      (x ≠ vf → (t.getV x).toNat = ((s.getV x).toNat + (s.getV y).toNat) % 256) ∧
      t.pc = s.pc + 2 ∧ OnlyChanges [x, vf] [.pc] s t

/-- SUB and SUBN (41_load_arith.md, SUB and SUBN): VF is 1 exactly when the minuend is at or above the subtrahend, and
the result register holds the difference modulo 256 unless it is VF itself (decision D11). -/
def Obligations.SubtractionsSetNotBorrow : Prop :=
  ∀ (x y : Reg) (s : State),
    decode (0x8#4 ++ x ++ y ++ 0x5#4) = .known (.sub x y) ∧ decode (0x8#4 ++ x ++ y ++ 0x7#4) = .known (.subn x y) ∧
    (∃ t, exec (.sub x y) s = .next t ∧
      t.getV vf = (if (s.getV x).toNat ≥ (s.getV y).toNat then 1 else 0) ∧
      (x ≠ vf → ((t.getV x).toNat : Int) = ((s.getV x).toNat - (s.getV y).toNat : Int) % 256) ∧
      t.pc = s.pc + 2 ∧ OnlyChanges [x, vf] [.pc] s t) ∧
    (∃ t, exec (.subn x y) s = .next t ∧
      t.getV vf = (if (s.getV y).toNat ≥ (s.getV x).toNat then 1 else 0) ∧
      (x ≠ vf → ((t.getV x).toNat : Int) = ((s.getV y).toNat - (s.getV x).toNat : Int) % 256) ∧
      t.pc = s.pc + 2 ∧ OnlyChanges [x, vf] [.pc] s t)

/-- SHR and SHL (41_load_arith.md, SHR and SHL): `V[x]` itself is shifted by one, whatever the `y` field is (decision
D13), VF is the bit shifted out, and with `x = 15` the flag wins (decision D11). -/
def Obligations.ShiftsPutTheLostBitInTheFlag : Prop :=
  ∀ (x y : Reg) (s : State),
    decode (0x8#4 ++ x ++ y ++ 0x6#4) = .known (.shr x) ∧ decode (0x8#4 ++ x ++ y ++ 0xE#4) = .known (.shl x) ∧
    (∃ t, exec (.shr x) s = .next t ∧ (t.getV vf).toNat = (s.getV x).toNat % 2 ∧
      (x ≠ vf → (t.getV x).toNat = (s.getV x).toNat / 2) ∧ t.pc = s.pc + 2 ∧ OnlyChanges [x, vf] [.pc] s t) ∧
    (∃ t, exec (.shl x) s = .next t ∧ (t.getV vf).toNat = (s.getV x).toNat / 128 ∧
      (x ≠ vf → (t.getV x).toNat = 2 * (s.getV x).toNat % 256) ∧ t.pc = s.pc + 2 ∧ OnlyChanges [x, vf] [.pc] s t)

/-! ### Index register and timers -/

/-- LD I, addr (42_index_timers.md R150). -/
def Obligations.LdIndexLoadsTheAddress : Prop :=
  ∀ (nnn : Addr12) (s : State), decode (0xA#4 ++ nnn) = .known (.ldI nnn) ∧
    ∃ t, exec (.ldI nnn) s = .next t ∧ t.i.toNat = nnn.toNat ∧ t.pc = s.pc + 2 ∧ OnlyChanges [] [.pc, .index] s t

/-- ADD I, Vx (42_index_timers.md, ADD I, Vx): the register is added unsigned, modulo 65536 (the spec's decision D14),
and VF is not written. -/
def Obligations.AddIndexAddsWithoutFlag : Prop :=
  ∀ (x : Reg) (s : State), decode (0xF#4 ++ x ++ 0x1E#8) = .known (.addI x) ∧
    ∃ t, exec (.addI x) s = .next t ∧ t.i.toNat = (s.i.toNat + (s.getV x).toNat) % 65536 ∧ t.pc = s.pc + 2 ∧
      OnlyChanges [] [.pc, .index] s t

/-- LD Vx, DT and LD DT, Vx (42_index_timers.md R152, R153). -/
def Obligations.DelayTimerIsReadAndWritten : Prop :=
  ∀ (x : Reg) (s : State),
    decode (0xF#4 ++ x ++ 0x07#8) = .known (.ldVxDt x) ∧ decode (0xF#4 ++ x ++ 0x15#8) = .known (.ldDtVx x) ∧
    (∃ t, exec (.ldVxDt x) s = .next t ∧ t.getV x = s.dt ∧ t.pc = s.pc + 2 ∧ OnlyChanges [x] [.pc] s t) ∧
    (∃ t, exec (.ldDtVx x) s = .next t ∧ t.dt = s.getV x ∧ t.pc = s.pc + 2 ∧
      OnlyChanges [] [.pc, .delayTimer] s t)

/-- LD ST, Vx (42_index_timers.md, LD ST, Vx): the sound timer takes the register, and the level output `sound_on` is 1
exactly when the written value is not zero (the spec's decision D29). -/
def Obligations.SoundTimerDrivesTheSoundOutput : Prop :=
  ∀ (x : Reg) (s : State), decode (0xF#4 ++ x ++ 0x18#8) = .known (.ldStVx x) ∧
    ∃ t, exec (.ldStVx x) s = .next t ∧ t.st = s.getV x ∧ (t.soundOn = true ↔ (s.getV x).toNat ≠ 0) ∧
      t.pc = s.pc + 2 ∧ OnlyChanges [] [.pc, .soundTimer] s t

/-- LD F, Vx (42_index_timers.md, LD F, Vx; the spec's decision D15): I takes the address of the glyph of the low
nibble, five bytes a glyph from address 0; while the reserved region is intact the five bytes there are that glyph
(20_memory.md, the font table; decision D16, log 6). -/
def Obligations.LdFPointsAtTheGlyph : Prop :=
  ∀ (x : Reg) (s : State), decode (0xF#4 ++ x ++ 0x29#8) = .known (.ldF x) ∧
    ∃ t, exec (.ldF x) s = .next t ∧ t.i.toNat = 5 * ((s.getV x).toNat % 16) ∧ t.pc = s.pc + 2 ∧
      OnlyChanges [] [.pc, .index] s t ∧
      (ReservedIntact s → ∀ k, k < 5 →
        t.mem.get (t.i.toNat + k) = fontTable.getD (5 * ((s.getV x).toNat % 16) + k) 0)

/-! ### Memory block transfers -/

/-- LD B, Vx (43_memory_block.md, LD B, Vx): the three decimal digits of the register at `I`, `I+1`, `I+2`, each where
an instruction may write; every other byte is unchanged; a refused access (the spec's decisions D18, D19) stores nothing
and is reported, in order; I is unchanged (decision D17). -/
def Obligations.LdBStoresDecimalDigits : Prop :=
  ∀ (x : Reg) (s : State), decode (0xF#4 ++ x ++ 0x33#8) = .known (.ldB x) ∧
    ∃ t, exec (.ldB x) s = .next t ∧
      (∀ a, Config.progBase ≤ a → a < Config.memSize →
        (a = s.blockAddr 0 → (t.mem.get a).toNat = (s.getV x).toNat / 100) ∧
        (a = s.blockAddr 1 → (t.mem.get a).toNat = (s.getV x).toNat / 10 % 10) ∧
        (a = s.blockAddr 2 → (t.mem.get a).toNat = (s.getV x).toNat % 10)) ∧
      (∀ a, (a < Config.progBase ∨ Config.memSize ≤ a ∨
          (a ≠ s.blockAddr 0 ∧ a ≠ s.blockAddr 1 ∧ a ≠ s.blockAddr 2)) → t.mem.get a = s.mem.get a) ∧
      t.log = s.log ++ refusals .write addrWritable [s.blockAddr 0, s.blockAddr 1, s.blockAddr 2] ∧
      t.pc = s.pc + 2 ∧ OnlyChanges [] [.pc, .memory, .reports] s t

/-- LD [I], Vx (43_memory_block.md, LD [I], Vx): register `k` at `I + k` for `k` in 0 to `x`, each where an instruction
may write; every other byte is unchanged; each refused access (decisions D18, D19) is reported, in order; I is unchanged
(decision D17). -/
def Obligations.LdMemoryStoresTheRegisters : Prop :=
  ∀ (x : Reg) (s : State), decode (0xF#4 ++ x ++ 0x55#8) = .known (.ldMemVx x) ∧
    ∃ t, exec (.ldMemVx x) s = .next t ∧
      (∀ k : Reg, k.toNat ≤ x.toNat → Config.progBase ≤ s.blockAddr k.toNat →
        s.blockAddr k.toNat < Config.memSize → t.mem.get (s.blockAddr k.toNat) = s.getV k) ∧
      (∀ a, (a < Config.progBase ∨ Config.memSize ≤ a ∨ ∀ k : Reg, k.toNat ≤ x.toNat → a ≠ s.blockAddr k.toNat) →
        t.mem.get a = s.mem.get a) ∧
      t.log = s.log ++ refusals .write addrWritable ((List.range (x.toNat + 1)).map s.blockAddr) ∧
      t.pc = s.pc + 2 ∧ OnlyChanges [] [.pc, .memory, .reports] s t

/-- LD Vx, [I] (43_memory_block.md, LD Vx, [I]): register `k` takes the byte at `I + k` for `k` in 0 to `x`; where that
address does not exist the register keeps its value and the access is reported (decision D18); I and memory are
unchanged (decision D17). -/
def Obligations.LdRegistersLoadsFromMemory : Prop :=
  ∀ (x : Reg) (s : State), decode (0xF#4 ++ x ++ 0x65#8) = .known (.ldVxMem x) ∧
    ∃ t, exec (.ldVxMem x) s = .next t ∧
      (∀ k : Reg, k.toNat ≤ x.toNat →
        t.getV k = if s.blockAddr k.toNat < Config.memSize then s.mem.get (s.blockAddr k.toNat) else s.getV k) ∧
      (∀ k : Reg, x.toNat < k.toNat → t.getV k = s.getV k) ∧
      t.log = s.log ++ refusals .read addrExists ((List.range (x.toNat + 1)).map s.blockAddr) ∧
      t.pc = s.pc + 2 ∧ OnlyChanges (regsUpTo x) [.pc, .reports] s t

/-- Registers stored to user space and loaded back from the same place are as they were (43_memory_block.md, LD [I], Vx
and LD Vx, [I]; 20_memory.md R60: "a write followed by a read of the same address returns the written byte"). -/
def Obligations.StoredRegistersLoadBack : Prop :=
  ∀ (x : Reg) (s : State), Config.progBase ≤ s.i.toNat → s.i.toNat + x.toNat < Config.memSize →
    ∃ t, exec (.ldMemVx x) s = .next t ∧ ∀ u : State, u.mem = t.mem → u.i = s.i →
      ∃ v, exec (.ldVxMem x) u = .next v ∧ ∀ k : Reg, k.toNat ≤ x.toNat → v.getV k = s.getV k

/-- Self-modifying code (20_memory.md R57, R64): after LD [I], Vx with `x` at least 1 into user space, a fetch at that
address, of the very next step or any later one that finds memory so, reads V0 as the high byte and V1 as the low byte
of the instruction. -/
def Obligations.StoredWordIsFetched : Prop :=
  ∀ (x : Reg) (s : State), 1 ≤ x.toNat → Config.progBase ≤ s.i.toNat → s.i.toNat + 1 < Config.memSize →
    ∃ t, exec (.ldMemVx x) s = .next t ∧ ∀ u : State, u.mem = t.mem → u.pc = s.i →
      u.fetch = some (s.getV 0 ++ s.getV 1)

/-! ### Random and input -/

/-- RND Vx, byte (44_random.md, RND Vx, byte; the spec's decision D25): the register takes the step's random byte, which
may be any, masked; bits outside the mask are 0. In a step event the byte is that event's argument. -/
def Obligations.RndMasksTheRandomByte : Prop :=
  ∀ (x : Reg) (nn : Byte) (s : State), decode (0xC#4 ++ x ++ nn) = .known (.rnd x nn) ∧
    (∃ t, exec (.rnd x nn) s = .next t ∧ (∀ j, (t.getV x).getLsbD j = (s.rand.getLsbD j && nn.getLsbD j)) ∧
      t.pc = s.pc + 2 ∧ OnlyChanges [x] [.pc] s t) ∧
    (∀ r : Byte, s.canFetch = true → decode s.fetchWord = .known (.rnd x nn) →
      ∃ t, applyEvent (.step r) s = .next t ∧ ∀ j, (t.getV x).getLsbD j = (r.getLsbD j && nn.getLsbD j))

/-- LD Vx, K (45_input.md R180): with a key pending, the register takes the key code and the latch is cleared; with none
pending nothing changes at all, PC included. -/
def Obligations.LdKeyConsumesThePendingKey : Prop :=
  ∀ (x : Reg) (s : State), decode (0xF#4 ++ x ++ 0x0A#8) = .known (.ldVxK x) ∧
    (∀ k, s.keyPending = some k →
      ∃ t, exec (.ldVxK x) s = .next t ∧ (t.getV x).toNat = k.toNat ∧ t.keyPending = none ∧ t.pc = s.pc + 2 ∧
        OnlyChanges [x] [.pc, .keyPending] s t) ∧
    (s.keyPending = none → exec (.ldVxK x) s = .next s)

/-- SKP and SKNP (45_input.md, SKP Vx and SKNP Vx): they skip when the key the register names is held, respectively not
held; a value above 0x0F names no key and is never held (the spec's decision D23). -/
def Obligations.KeySkipsTestTheHeldKey : Prop :=
  ∀ (x : Reg) (s : State),
    decode (0xE#4 ++ x ++ 0x9E#8) = .known (.skp x) ∧ decode (0xE#4 ++ x ++ 0xA1#8) = .known (.sknp x) ∧
    (∃ t, exec (.skp x) s = .next t ∧ OnlyChanges [] [.pc] s t ∧
      ((∃ k : Fin Config.nKeys, (s.getV x).toNat = k.val ∧ s.keyHeld[k] = true) → t.pc = s.pc + 4) ∧
      ((¬ ∃ k : Fin Config.nKeys, (s.getV x).toNat = k.val ∧ s.keyHeld[k] = true) → t.pc = s.pc + 2)) ∧
    (∃ t, exec (.sknp x) s = .next t ∧ OnlyChanges [] [.pc] s t ∧
      ((∃ k : Fin Config.nKeys, (s.getV x).toNat = k.val ∧ s.keyHeld[k] = true) → t.pc = s.pc + 2) ∧
      ((¬ ∃ k : Fin Config.nKeys, (s.getV x).toNat = k.val ∧ s.keyHeld[k] = true) → t.pc = s.pc + 4))

/-! ### Display -/

/-- CLS (46_display.md, CLS): every cell is off and `REDRAW` is set, whatever was on (the spec's decision D21). -/
def Obligations.ClsTurnsEveryCellOff : Prop :=
  decode 0x00E0 = .known .cls ∧
  ∀ s : State, ∃ t, exec .cls s = .next t ∧ (∀ px py, t.pixel px py = false) ∧ t.redraw = true ∧
    t.pc = s.pc + 2 ∧ OnlyChanges [] [.pc, .display, .redraw] s t

/-- DRW Vx, Vy, nibble (46_display.md, DRW): every cell the sprite covers is inverted and no other; VF is 1 exactly when
some covered cell was on, else 0; `REDRAW` is set (decision D21); a row whose byte does not exist draws nothing and is
reported (decision D18). Both coordinates are the old register values, VF's included (decision D11). -/
def Obligations.DrwInvertsTheCoveredCells : Prop :=
  ∀ (x y : Reg) (n : Nibble) (s : State), decode (0xD#4 ++ x ++ y ++ n) = .known (.drw x y n) ∧
    ∃ t, exec (.drw x y n) s = .next t ∧
      (∀ px py, (SpriteCovers s (s.getV x).toNat (s.getV y).toNat n.toNat px py →
          t.pixel px py = !s.pixel px py) ∧
        (¬ SpriteCovers s (s.getV x).toNat (s.getV y).toNat n.toNat px py → t.pixel px py = s.pixel px py)) ∧
      ((∃ px py, SpriteCovers s (s.getV x).toNat (s.getV y).toNat n.toNat px py ∧ s.pixel px py = true) →
        t.getV vf = 1) ∧
      ((¬ ∃ px py, SpriteCovers s (s.getV x).toNat (s.getV y).toNat n.toNat px py ∧ s.pixel px py = true) →
        t.getV vf = 0) ∧
      t.log = s.log ++ refusals .read addrExists ((List.range n.toNat).map s.blockAddr) ∧
      t.redraw = true ∧ t.pc = s.pc + 2 ∧ OnlyChanges [vf] [.pc, .display, .redraw, .reports] s t

/-- Drawing the same sprite twice at the same place restores the display (46_display.md, DRW, corner case (c)), and on
a cleared screen the first draw reports no collision and the second one a collision exactly when the sprite has a set
bit. The second DRW may name other registers, as long as they hold the same coordinates. -/
def Obligations.DrawingTwiceRestoresTheDisplay : Prop :=
  ∀ (x y x' y' : Reg) (n : Nibble) (s : State), ∃ t, exec (.drw x y n) s = .next t ∧
    ∀ u : State, u.mem = s.mem → u.i = s.i → u.disp = t.disp → u.getV x' = s.getV x → u.getV y' = s.getV y →
      ∃ v, exec (.drw x' y' n) u = .next v ∧ v.disp = s.disp ∧
        ((∀ px py, s.pixel px py = false) → t.getV vf = 0 ∧
          (v.getV vf = 1 ↔ ∃ px py, SpriteCovers s (s.getV x).toNat (s.getV y).toNat n.toNat px py))

/-! ### Events -/

/-- `tick` (60_exceptions.md R240): both timers go down by one in the same event, a timer at 0 stays 0, nothing else
changes, no report is raised, and the output `sound_on` falls when the sound timer goes from 1 to 0. -/
def Obligations.TickCountsBothTimersDown : Prop :=
  ∀ s : State, ∃ t, applyEvent .tick s = .next t ∧ t.dt.toNat = s.dt.toNat - 1 ∧ t.st.toNat = s.st.toNat - 1 ∧
    OnlyChanges [] [.delayTimer, .soundTimer] s t ∧ (s.st = 1 → s.soundOn = true ∧ t.soundOn = false)

/-- "A timer loaded with `v` reaches 0 after exactly `v` ticks if it is not rewritten" (60_exceptions.md R241): after
`n` ticks in a row each timer holds what is left of it, and no tick before has more or less. -/
def Obligations.TimersReachZeroAfterTheirCount : Prop :=
  ∀ (n : Nat) (s : State) (rest : List Event),
    ∃ t, Sys2Proof.core.run n { s with schedule := List.replicate n .tick ++ rest } = .next t ∧
      t.dt.toNat = s.dt.toNat - n ∧ t.st.toNat = s.st.toNat - n ∧ t.pc = s.pc ∧ t.schedule = rest

/-- `key_down` and `key_up` (50_interfaces.md, the two key events): a valid code becomes the pending key and is held
until its key-up, which leaves the pending key alone; a code above 0x0F is ignored (the spec's decision D24). -/
def Obligations.KeyEventsSetTheLatchAndTheHeldKey : Prop :=
  ∀ (code : Nat) (s : State),
    (code < Config.nKeys →
      (∃ t, applyEvent (.keyDown code) s = .next t ∧ t.keyPending = some (BitVec.ofNat 4 code) ∧
        (∀ k : Fin Config.nKeys, t.keyHeld[k] = if k.val = code then true else s.keyHeld[k]) ∧
        OnlyChanges [] [.keyPending, .keyHeld] s t) ∧
      (∃ t, applyEvent (.keyUp code) s = .next t ∧
        (∀ k : Fin Config.nKeys, t.keyHeld[k] = if k.val = code then false else s.keyHeld[k]) ∧
        OnlyChanges [] [.keyHeld] s t)) ∧
    (Config.nKeys ≤ code →
      applyEvent (.keyDown code) s = .next s ∧ applyEvent (.keyUp code) s = .next s)

/-- `load(image)` (50_interfaces.md, load; the spec's decision D28): an image of at most 3584 bytes is written from
0x200 on, every other byte and everything else is unchanged; a longer image changes nothing and is reported. -/
def Obligations.LoadWritesTheImage : Prop :=
  ∀ (image : List Byte) (s : State),
    (image.length ≤ 3584 → ∃ t, applyEvent (.load image) s = .next t ∧
      (∀ (k : Nat) (h : k < image.length), t.mem.get (0x200 + k) = image[k]) ∧
      (∀ a, (a < 0x200 ∨ 0x200 + image.length ≤ a) → t.mem.get a = s.mem.get a) ∧
      OnlyChanges [] [.memory] s t) ∧
    (3584 < image.length → ∃ t, applyEvent (.load image) s = .next t ∧
      t.log = s.log ++ [.loadTooLarge image.length] ∧ OnlyChanges [] [.reports] s t)

/-- `reset` (70_reset_and_hazards.md, the reset event, with the spec's decisions D26 and D27 for every value but PC):
every component holds its reset value, from whatever state; the model's own log, random byte, count of draws and
schedule survive (log 1, 2, 3). The state after power-on, `State.reset`, reads the same. -/
def Obligations.ResetGivesTheResetValues : Prop :=
  ∀ s : State, ∃ t, applyEvent .reset s = .next t ∧
    (∀ u : State, u = t ∨ u = State.reset →
      (∀ k, u.getV k = 0) ∧ u.i = 0 ∧ u.pc = 0x200 ∧ u.stack = [] ∧ u.dt = 0 ∧ u.st = 0 ∧ u.soundOn = false ∧
      (∀ a, a < 80 → u.mem.get a = fontTable.getD a 0) ∧ (∀ a, 80 ≤ a → u.mem.get a = 0) ∧
      (∀ px py, u.pixel px py = false) ∧ u.redraw = false ∧ u.keyPending = none ∧
      (∀ k : Fin Config.nKeys, u.keyHeld[k] = false)) ∧
    t.log = s.log ∧ t.rand = s.rand ∧ t.draws = s.draws ∧ t.schedule = s.schedule

/-- `redraw_ack` (50_interfaces.md R208): it clears `REDRAW` and changes nothing else; no other event clears the flag, but
for the reset event (R260, decision D26: `ResetGivesTheResetValues` says what that one does), and no instruction does; and
no instruction reads it: from states that differ only in it, an instruction ends in states that differ at most in it. -/
def Obligations.RedrawIsClearedOnlyByAckOrReset : Prop :=
  (∀ s : State, ∃ t, applyEvent .redrawAck s = .next t ∧ t.redraw = false ∧ OnlyChanges [] [.redraw] s t) ∧
  (∀ (e : Event) (s t : State), e ≠ .redrawAck → e ≠ .reset → applyEvent e s = .next t →
    s.redraw = true → t.redraw = true) ∧
  (∀ (i : Instr) (s t : State), exec i s = .next t → s.redraw = true → t.redraw = true) ∧
  (∀ (i : Instr) (s t : State) (b : Bool), exec i s = .next t →
    ∃ t', exec i { s with redraw := b } = .next t' ∧ { t' with redraw := t.redraw } = t)

/-! ### Conditions that persist -/

/-- Persistent conditions (60_exceptions.md R236): from a state where the fetch is refused, or a RET finds an empty
stack, or a CALL a full one, a step event reports once more and changes nothing, so that the state stays such. -/
def Obligations.StalledStatesStayStalled : Prop :=
  ∀ (r : Byte) (s : State), Stalled s → ∃ t, applyEvent (.step r) s = .next t ∧ Stalled t ∧
    OnlyChanges [] [.reports, .outside] s t ∧ ∃ rep, t.log = s.log ++ [rep]

/-- The wait state (60_exceptions.md R245): while LD Vx,K finds no pending key a step changes nothing (the model latches
the step's random byte, log 2) and reports nothing; the first step after a `key_down` with a valid code ends it. -/
def Obligations.WaitingEndsWithAKeyDown : Prop :=
  ∀ (r : Byte) (s : State), Waiting s →
    applyEvent (.step r) s = .next { s with rand := r } ∧
    ∀ code, code < Config.nKeys → ∃ t, applyEvent (.keyDown code) s = .next t ∧
      ∃ u, applyEvent (.step r) t = .next u ∧ u.pc = s.pc + 2 ∧ u.keyPending = none

/-- A JP to itself, the model's end of a run (log 10; 50_interfaces.md R213, 40_control_flow.md R110(c)), "changes no
state from step to step" but for the latch of the step's random byte (log 2), and stays finished. -/
def Obligations.FinishedStatesRepeat : Prop :=
  ∀ (r : Byte) (s : State), Finished s →
    applyEvent (.step r) s = .next { s with rand := r } ∧ Finished { s with rand := r }
end

