-- ==== Sys2Proof/Laws/Decode.lean ====
section
/-! SUPPORT. The fields (30_encoding.md R82) of a word put together from its fields, and every word as the concatenation
of its fields, for each of the layouts of R83. -/

namespace Sys2Proof

open BitVec

/-! ### Layout ADDR: `op ++ nnn` -/

@[simp] theorem fieldOp_addr (op : Nibble) (nnn : Addr12) : fieldOp (op ++ nnn) = op := extractLsb'_append_eq_left

@[simp] theorem fieldNNN_addr (op : Nibble) (nnn : Addr12) : fieldNNN (op ++ nnn) = nnn := extractLsb'_append_eq_right

/-! ### Layouts XNN and XSUB: `op ++ x ++ nn` -/

@[simp] theorem fieldOp_xnn (op : Nibble) (x : Reg) (nn : Byte) : fieldOp (op ++ x ++ nn) = op :=
  (extractLsb'_append_eq_of_le (xhi := op ++ x) (xlo := nn) (by decide)).trans extractLsb'_append_eq_left

@[simp] theorem fieldX_xnn (op : Nibble) (x : Reg) (nn : Byte) : fieldX (op ++ x ++ nn) = x :=
  (extractLsb'_append_eq_of_le (xhi := op ++ x) (xlo := nn) (by decide)).trans extractLsb'_append_eq_right

@[simp] theorem fieldNN_xnn (op : Nibble) (x : Reg) (nn : Byte) : fieldNN (op ++ x ++ nn) = nn :=
  extractLsb'_append_eq_right (a := op ++ x)

/-! ### Layouts XY and XYN: `op ++ x ++ y ++ n` -/

@[simp] theorem fieldOp_xyn (op : Nibble) (x y : Reg) (n : Nibble) : fieldOp (op ++ x ++ y ++ n) = op :=
  (extractLsb'_append_eq_of_le (xhi := op ++ x ++ y) (xlo := n) (by decide)).trans
    ((extractLsb'_append_eq_of_le (xhi := op ++ x) (xlo := y) (by decide)).trans extractLsb'_append_eq_left)

@[simp] theorem fieldX_xyn (op : Nibble) (x y : Reg) (n : Nibble) : fieldX (op ++ x ++ y ++ n) = x :=
  (extractLsb'_append_eq_of_le (xhi := op ++ x ++ y) (xlo := n) (by decide)).trans
    ((extractLsb'_append_eq_of_le (xhi := op ++ x) (xlo := y) (by decide)).trans extractLsb'_append_eq_right)

@[simp] theorem fieldY_xyn (op : Nibble) (x y : Reg) (n : Nibble) : fieldY (op ++ x ++ y ++ n) = y :=
  (extractLsb'_append_eq_of_le (xhi := op ++ x ++ y) (xlo := n) (by decide)).trans
    (extractLsb'_append_eq_right (a := op ++ x))

@[simp] theorem fieldN_xyn (op : Nibble) (x y : Reg) (n : Nibble) : fieldN (op ++ x ++ y ++ n) = n :=
  extractLsb'_append_eq_right (a := op ++ x ++ y)

/-! ### Every word is the concatenation of its fields -/

theorem eq_addr (w : Word16) : w = fieldOp w ++ fieldNNN w :=
  ((extractLsb'_append_extractLsb'_eq_extractLsb' (x := w) (start₂ := 12) (start₁ := 0) (len₁ := 12) (len₂ := 4)
    rfl).trans extractLsb'_eq_self).symm

theorem fieldNNN_eq (w : Word16) : fieldNNN w = fieldX w ++ fieldNN w :=
  (extractLsb'_append_extractLsb'_eq_extractLsb' (x := w) (start₂ := 8) (start₁ := 0) (len₁ := 8) (len₂ := 4) rfl).symm

theorem fieldNN_eq (w : Word16) : fieldNN w = fieldY w ++ fieldN w :=
  (extractLsb'_append_extractLsb'_eq_extractLsb' (x := w) (start₂ := 4) (start₁ := 0) (len₁ := 4) (len₂ := 4) rfl).symm

theorem highByte_eq (w : Word16) : highByte w = fieldOp w ++ fieldX w :=
  (extractLsb'_append_extractLsb'_eq_extractLsb' (x := w) (start₂ := 12) (start₁ := 8) (len₁ := 4) (len₂ := 4) rfl).symm

theorem eq_xnn (w : Word16) : w = fieldOp w ++ fieldX w ++ fieldNN w := by
  rw [← highByte_eq]
  exact ((extractLsb'_append_extractLsb'_eq_extractLsb' (x := w) (start₂ := 8) (start₁ := 0) (len₁ := 8) (len₂ := 8)
    rfl).trans extractLsb'_eq_self).symm

theorem eq_xyn (w : Word16) : w = fieldOp w ++ fieldX w ++ fieldY w ++ fieldN w := by
  have h : highByte w ++ fieldY w = w.extractLsb' 4 12 :=
    extractLsb'_append_extractLsb'_eq_extractLsb' (x := w) (start₂ := 8) (start₁ := 4) (len₁ := 4) (len₂ := 8) rfl
  rw [← highByte_eq, h]
  exact ((extractLsb'_append_extractLsb'_eq_extractLsb' (x := w) (start₂ := 4) (start₁ := 0) (len₁ := 4) (len₂ := 12)
    rfl).trans extractLsb'_eq_self).symm

/-- The two bytes of a word put back together. -/
@[simp] theorem joinBytes_bytes (w : Word16) : joinBytes (highByte w) (lowByte w) = w :=
  (extractLsb'_append_extractLsb'_eq_extractLsb' (x := w) (start₂ := 8) (start₁ := 0) (len₁ := 8) (len₂ := 8)
    rfl).trans extractLsb'_eq_self

/-! ### The masks of the opcode table -/

theorem and_maskF000 (w : Word16) : w &&& 0xF000#16 = fieldOp w ++ 0#12 := by
  conv_lhs => rw [eq_addr w, show (0xF000#16 : Word16) = 0xF#4 ++ 0#12 by decide]
  refine (BitVec.and_append (x₁ := fieldOp w) (y₁ := fieldNNN w)).trans ?_
  rw [show (0xF#4 : Nibble) = BitVec.allOnes 4 by decide, BitVec.and_allOnes, BitVec.and_zero]

theorem and_maskF00F (w : Word16) : w &&& 0xF00F#16 = fieldOp w ++ 0#4 ++ 0#4 ++ fieldN w := by
  conv_lhs => rw [eq_xyn w, show (0xF00F#16 : Word16) = 0xF#4 ++ 0#4 ++ 0#4 ++ 0xF#4 by decide]
  refine (BitVec.and_append (x₁ := fieldOp w ++ fieldX w ++ fieldY w) (y₁ := fieldN w)).trans ?_
  rw [BitVec.and_append, BitVec.and_append, show (0xF#4 : Nibble) = BitVec.allOnes 4 by decide, BitVec.and_allOnes,
    BitVec.and_allOnes, BitVec.and_zero, BitVec.and_zero]

theorem and_maskF0FF (w : Word16) : w &&& 0xF0FF#16 = fieldOp w ++ 0#4 ++ fieldNN w := by
  conv_lhs => rw [eq_xnn w, show (0xF0FF#16 : Word16) = 0xF#4 ++ 0#4 ++ 0xFF#8 by decide]
  refine (BitVec.and_append (x₁ := fieldOp w ++ fieldX w) (y₁ := fieldNN w)).trans ?_
  rw [BitVec.and_append, show (0xF#4 : Nibble) = BitVec.allOnes 4 by decide,
    show (0xFF#8 : Byte) = BitVec.allOnes 8 by decide, BitVec.and_allOnes, BitVec.and_allOnes, BitVec.and_zero]

end Sys2Proof
end

