-- ==== Sys2Proof/Laws/Memory.lean ====
section
/-! SUPPORT. The laws of memory contents: a read after a write to the same address gives the byte written, a write
leaves every other address alone, every memory operation keeps the canonical form, and canonical memories that read the
same are equal. -/

namespace Sys2Proof.Machine

@[simp] theorem Memory.get_nil (a : Nat) : Memory.get [] a = resetByte a := rfl

theorem Memory.get_cons (c : Host.Cell) (m : Memory) (a : Nat) :
    Memory.get (c :: m) a = if c.1 = a then c.2 else Memory.get m a := by
  by_cases h : c.1 = a <;> simp [Memory.get, h]

theorem Memory.erase_cons (c : Host.Cell) (m : Memory) (a : Nat) :
    Memory.erase (c :: m) a = if c.1 = a then Memory.erase m a else c :: Memory.erase m a := by
  by_cases h : c.1 = a <;> simp [Memory.erase, h]

theorem Memory.get_erase (m : Memory) (a b : Nat) :
    (m.erase a).get b = if b = a then resetByte b else m.get b := by
  induction m with
  | nil => simp [Memory.erase]
  | cons c m ih =>
    rw [Memory.erase_cons, Memory.get_cons]
    by_cases h : c.1 = a
    · by_cases hb : b = a
      · rw [if_pos h, ih]
        simp [hb]
      · have : ¬ a = b := fun e => hb e.symm
        simp [h, ih, hb, this]
    · rw [if_neg h, Memory.get_cons, ih]
      by_cases hb : b = a
      · simp [hb, h]
      · simp [hb]

theorem Memory.get_insert (m : Memory) (a b : Nat) (v : Byte) (h : b ≠ a) :
    (Memory.insert a v m).get b = m.get b := by
  induction m with
  | nil => simp [Memory.insert, Memory.get_cons, Ne.symm h]
  | cons c m ih =>
    rw [Memory.insert]
    split
    · rw [Memory.get_cons, if_neg (Ne.symm h)]
    · rw [Memory.get_cons, ih, Memory.get_cons]

theorem Memory.get_insert_same (m : Memory) (a : Nat) (v : Byte) (h : ∀ c ∈ m, c.1 ≠ a) :
    (Memory.insert a v m).get a = v := by
  induction m with
  | nil => simp [Memory.insert, Memory.get_cons]
  | cons c m ih =>
    rw [Memory.insert]
    split
    · simp [Memory.get_cons]
    · rw [Memory.get_cons, if_neg (h c (by simp)), ih (fun d hd => h d (by simp [hd]))]

theorem Memory.key_of_mem_erase {m : Memory} {a : Nat} {c : Host.Cell} (h : c ∈ m.erase a) : c.1 ≠ a := by
  simpa using (List.mem_filter.mp h).2

/-- Reading any address after storing a byte. -/
theorem Memory.get_set (m : Memory) (a b : Nat) (v : Byte) :
    (m.set a v).get b = if b = a then v else m.get b := by
  unfold Memory.set
  split
  · next hv =>
    rw [Memory.get_erase]
    by_cases hb : b = a
    · simp [hb, hv]
    · simp [hb]
  · by_cases hb : b = a
    · subst hb
      simp [Memory.get_insert_same _ _ _ (fun c hc => Memory.key_of_mem_erase hc)]
    · rw [Memory.get_insert _ _ _ _ hb, Memory.get_erase]
      simp [hb]

@[simp] theorem Memory.get_set_same (m : Memory) (a : Nat) (v : Byte) : (m.set a v).get a = v := by
  rw [Memory.get_set, if_pos rfl]

theorem Memory.get_set_other (m : Memory) {a b : Nat} (v : Byte) (h : b ≠ a) : (m.set a v).get b = m.get b := by
  rw [Memory.get_set, if_neg h]

theorem Memory.get_rawWrite (m : Memory) (a b : Nat) (v : Byte) :
    (m.rawWrite a v).get b = if b = a ∧ a < Config.memSize then v else m.get b := by
  unfold Memory.rawWrite addrExists
  by_cases h : a < Config.memSize <;> simp [h, Memory.get_set]

/-- Reading any address after a raw write of consecutive bytes (R203). -/
theorem Memory.get_rawWriteBytes (bytes : List Byte) (m : Memory) (a b : Nat) :
    (m.rawWriteBytes a bytes).get b =
      if a ≤ b ∧ b < Config.memSize then (bytes[b - a]?).getD (m.get b) else m.get b := by
  induction bytes generalizing m a with
  | nil => simp [Memory.rawWriteBytes]
  | cons v rest ih =>
    rw [Memory.rawWriteBytes, ih, Memory.get_rawWrite]
    by_cases hb : b < Config.memSize
    · rcases Nat.lt_trichotomy b a with h | h | h
      · have h1 : ¬ a ≤ b := by omega
        have h2 : ¬ a + 1 ≤ b := by omega
        have h3 : ¬ b = a := by omega
        simp [h1, h2, h3]
      · subst h
        simp [hb]
      · have h1 : a ≤ b := by omega
        have h2 : a + 1 ≤ b := by omega
        have h3 : ¬ b = a := by omega
        have h4 : b - a = (b - (a + 1)) + 1 := by omega
        simp [h1, h2, h3, h4]
    · have : ¬ (b = a ∧ a < Config.memSize) := by omega
      simp [hb, this]

/-! ### The canonical form -/

theorem Memory.wfFrom_cons (lo : Nat) (c : Host.Cell) (m : Memory) :
    Memory.wfFrom lo (c :: m) = true ↔
      lo ≤ c.1 ∧ c.1 < Config.memSize ∧ c.2 ≠ resetByte c.1 ∧ Memory.wfFrom (c.1 + 1) m = true := by
  obtain ⟨a, v⟩ := c
  simp [Memory.wfFrom, and_assoc]

theorem Memory.wfFrom_mono {lo lo' : Nat} {m : Memory} (h : Memory.wfFrom lo m = true) (hlo : lo' ≤ lo) :
    Memory.wfFrom lo' m = true := by
  cases m with
  | nil => rfl
  | cons c m =>
    rw [Memory.wfFrom_cons] at h ⊢
    exact ⟨Nat.le_trans hlo h.1, h.2⟩

theorem Memory.wfFrom_erase {lo : Nat} {m : Memory} (a : Nat) (h : Memory.wfFrom lo m = true) :
    Memory.wfFrom lo (m.erase a) = true := by
  induction m generalizing lo with
  | nil => rfl
  | cons c m ih =>
    rw [Memory.wfFrom_cons] at h
    rw [Memory.erase_cons]
    split
    · exact Memory.wfFrom_mono (ih h.2.2.2) (by omega)
    · rw [Memory.wfFrom_cons]
      exact ⟨h.1, h.2.1, h.2.2.1, ih h.2.2.2⟩

theorem Memory.wfFrom_insert {lo : Nat} {m : Memory} {a : Nat} {v : Byte} (h : Memory.wfFrom lo m = true)
    (hlo : lo ≤ a) (ha : a < Config.memSize) (hv : v ≠ resetByte a) (hm : ∀ c ∈ m, c.1 ≠ a) :
    Memory.wfFrom lo (Memory.insert a v m) = true := by
  induction m generalizing lo with
  | nil => simp [Memory.insert, Memory.wfFrom, hlo, ha, hv]
  | cons c m ih =>
    rw [Memory.wfFrom_cons] at h
    have hc : c.1 ≠ a := hm c (by simp)
    rw [Memory.insert]
    split
    · rw [Memory.wfFrom_cons, Memory.wfFrom_cons]
      exact ⟨hlo, ha, hv, by simp only []; omega, h.2⟩
    · rw [Memory.wfFrom_cons]
      exact ⟨h.1, h.2.1, h.2.2.1, ih h.2.2.2 (by omega) (fun d hd => hm d (by simp [hd]))⟩

/-- Storing a byte at an address that exists keeps the canonical form. -/
theorem Memory.wf_set {m : Memory} {a : Nat} (v : Byte) (h : m.wf = true) (ha : a < Config.memSize) :
    (m.set a v).wf = true := by
  unfold Memory.set Memory.wf
  split
  · exact Memory.wfFrom_erase a h
  · next hv =>
    exact Memory.wfFrom_insert (Memory.wfFrom_erase a h) (Nat.zero_le a) ha hv (fun c hc => Memory.key_of_mem_erase hc)

theorem Memory.wf_rawWrite {m : Memory} (a : Nat) (v : Byte) (h : m.wf = true) : (m.rawWrite a v).wf = true := by
  unfold Memory.rawWrite addrExists
  split
  · next ha => exact Memory.wf_set v h (by simpa using ha)
  · exact h

theorem Memory.wf_rawWriteBytes (bytes : List Byte) {m : Memory} (a : Nat) (h : m.wf = true) :
    (m.rawWriteBytes a bytes).wf = true := by
  induction bytes generalizing m a with
  | nil => exact h
  | cons v rest ih => exact ih (a + 1) (Memory.wf_rawWrite a v h)

theorem Memory.get_of_lt {lo a : Nat} {m : Memory} (h : Memory.wfFrom lo m = true) (ha : a < lo) :
    m.get a = resetByte a := by
  induction m generalizing lo with
  | nil => rfl
  | cons c m ih =>
    rw [Memory.wfFrom_cons] at h
    rw [Memory.get_cons, if_neg (by omega), ih h.2.2.2 (by omega)]

/-- Canonical memories that read the same everywhere are the same data. -/
theorem Memory.ext_of_wfFrom {lo : Nat} {m m' : Memory} (h : Memory.wfFrom lo m = true)
    (h' : Memory.wfFrom lo m' = true) (hget : ∀ a, m.get a = m'.get a) : m = m' := by
  induction m generalizing lo m' with
  | nil =>
    cases m' with
    | nil => rfl
    | cons c' m' =>
      rw [Memory.wfFrom_cons] at h'
      have := hget c'.1
      rw [Memory.get_cons, if_pos rfl] at this
      exact absurd this.symm h'.2.2.1
  | cons c m ih =>
    rw [Memory.wfFrom_cons] at h
    cases m' with
    | nil =>
      have := hget c.1
      rw [Memory.get_cons, if_pos rfl] at this
      exact absurd this h.2.2.1
    | cons c' m' =>
      rw [Memory.wfFrom_cons] at h'
      have hkey : c.1 = c'.1 := by
        rcases Nat.lt_trichotomy c.1 c'.1 with hlt | heq | hgt
        · have := hget c.1
          rw [Memory.get_cons, if_pos rfl, Memory.get_cons, if_neg (by omega),
            Memory.get_of_lt h'.2.2.2 (by omega)] at this
          exact absurd this h.2.2.1
        · exact heq
        · have := hget c'.1
          rw [Memory.get_cons, if_neg (by omega), Memory.get_of_lt h.2.2.2 (by omega), Memory.get_cons,
            if_pos rfl] at this
          exact absurd this.symm h'.2.2.1
      have hval : c.2 = c'.2 := by
        have := hget c.1
        rwa [Memory.get_cons, if_pos rfl, Memory.get_cons, if_pos hkey.symm] at this
      have hrest : m = m' := by
        refine ih h.2.2.2 (hkey ▸ h'.2.2.2) (fun a => ?_)
        by_cases ha : a = c.1
        · rw [ha, Memory.get_of_lt h.2.2.2 (by omega), Memory.get_of_lt h'.2.2.2 (by omega)]
        · have := hget a
          rwa [Memory.get_cons, if_neg (Ne.symm ha), Memory.get_cons, if_neg (by omega)] at this
      rw [hrest, show c = c' from Prod.ext hkey hval]

end Sys2Proof.Machine
end

