-- ==== Sys2Proof/Laws/State.lean ====
section
/-! SUPPORT. One lemma per field per update of the state, so that no later proof unfolds a record update, and the
read-after-write laws of the register file. -/

namespace Sys2Proof.Machine

/-! ### The register file -/

@[simp] theorem State.getV_setV_same (s : State) (k : Reg) (a : Byte) : (s.setV k a).getV k = a := by
  simp [State.getV, State.setV]

theorem State.getV_setV_other (s : State) {k j : Reg} (a : Byte) (h : j ≠ k) : (s.setV k a).getV j = s.getV j := by
  have hne : k.toNat ≠ j.toNat := fun e => h (BitVec.eq_of_toNat_eq e.symm)
  simp [State.getV, State.setV, hne]

/-- Reading any register after writing one. -/
theorem State.getV_setV (s : State) (k j : Reg) (a : Byte) :
    (s.setV k a).getV j = if j = k then a else s.getV j := by
  split
  · next h => rw [h, State.getV_setV_same]
  · next h => exact State.getV_setV_other s a h

@[simp] theorem State.pixel_eq_cell (s : State) (px py : Nat) : s.pixel px py = s.disp.cell px py := rfl

/-! ### `raise` -/

@[simp] theorem State.raise_v (s : State) (r : Report) : (s.raise r).v = s.v := rfl
@[simp] theorem State.raise_i (s : State) (r : Report) : (s.raise r).i = s.i := rfl
@[simp] theorem State.raise_pc (s : State) (r : Report) : (s.raise r).pc = s.pc := rfl
@[simp] theorem State.raise_stack (s : State) (r : Report) : (s.raise r).stack = s.stack := rfl
@[simp] theorem State.raise_dt (s : State) (r : Report) : (s.raise r).dt = s.dt := rfl
@[simp] theorem State.raise_st (s : State) (r : Report) : (s.raise r).st = s.st := rfl
@[simp] theorem State.raise_mem (s : State) (r : Report) : (s.raise r).mem = s.mem := rfl
@[simp] theorem State.raise_disp (s : State) (r : Report) : (s.raise r).disp = s.disp := rfl
@[simp] theorem State.raise_redraw (s : State) (r : Report) : (s.raise r).redraw = s.redraw := rfl
@[simp] theorem State.raise_keyPending (s : State) (r : Report) : (s.raise r).keyPending = s.keyPending := rfl
@[simp] theorem State.raise_keyHeld (s : State) (r : Report) : (s.raise r).keyHeld = s.keyHeld := rfl
@[simp] theorem State.raise_rand (s : State) (r : Report) : (s.raise r).rand = s.rand := rfl
@[simp] theorem State.raise_draws (s : State) (r : Report) : (s.raise r).draws = s.draws := rfl
@[simp] theorem State.raise_log (s : State) (r : Report) : (s.raise r).log = s.log ++ [r] := rfl
@[simp] theorem State.raise_schedule (s : State) (r : Report) : (s.raise r).schedule = s.schedule := rfl
@[simp] theorem State.raise_getV (s : State) (r : Report) (j : Reg) : (s.raise r).getV j = s.getV j := rfl

/-! ### `advance` -/

@[simp] theorem State.advance_v (s : State) : (s.advance).v = s.v := rfl
@[simp] theorem State.advance_i (s : State) : (s.advance).i = s.i := rfl
@[simp] theorem State.advance_pc (s : State) : (s.advance).pc = s.pc + 2 := rfl
@[simp] theorem State.advance_stack (s : State) : (s.advance).stack = s.stack := rfl
@[simp] theorem State.advance_dt (s : State) : (s.advance).dt = s.dt := rfl
@[simp] theorem State.advance_st (s : State) : (s.advance).st = s.st := rfl
@[simp] theorem State.advance_mem (s : State) : (s.advance).mem = s.mem := rfl
@[simp] theorem State.advance_disp (s : State) : (s.advance).disp = s.disp := rfl
@[simp] theorem State.advance_redraw (s : State) : (s.advance).redraw = s.redraw := rfl
@[simp] theorem State.advance_keyPending (s : State) : (s.advance).keyPending = s.keyPending := rfl
@[simp] theorem State.advance_keyHeld (s : State) : (s.advance).keyHeld = s.keyHeld := rfl
@[simp] theorem State.advance_rand (s : State) : (s.advance).rand = s.rand := rfl
@[simp] theorem State.advance_draws (s : State) : (s.advance).draws = s.draws := rfl
@[simp] theorem State.advance_log (s : State) : (s.advance).log = s.log := rfl
@[simp] theorem State.advance_schedule (s : State) : (s.advance).schedule = s.schedule := rfl
@[simp] theorem State.advance_getV (s : State) (j : Reg) : (s.advance).getV j = s.getV j := rfl

/-! ### `advanceSkipping` -/

@[simp] theorem State.advanceSkipping_v (s : State) (c : Bool) : (s.advanceSkipping c).v = s.v := rfl
@[simp] theorem State.advanceSkipping_i (s : State) (c : Bool) : (s.advanceSkipping c).i = s.i := rfl
@[simp] theorem State.advanceSkipping_pc (s : State) (c : Bool) : (s.advanceSkipping c).pc = s.pc + if c then 4 else 2 := rfl
@[simp] theorem State.advanceSkipping_stack (s : State) (c : Bool) : (s.advanceSkipping c).stack = s.stack := rfl
@[simp] theorem State.advanceSkipping_dt (s : State) (c : Bool) : (s.advanceSkipping c).dt = s.dt := rfl
@[simp] theorem State.advanceSkipping_st (s : State) (c : Bool) : (s.advanceSkipping c).st = s.st := rfl
@[simp] theorem State.advanceSkipping_mem (s : State) (c : Bool) : (s.advanceSkipping c).mem = s.mem := rfl
@[simp] theorem State.advanceSkipping_disp (s : State) (c : Bool) : (s.advanceSkipping c).disp = s.disp := rfl
@[simp] theorem State.advanceSkipping_redraw (s : State) (c : Bool) : (s.advanceSkipping c).redraw = s.redraw := rfl
@[simp] theorem State.advanceSkipping_keyPending (s : State) (c : Bool) : (s.advanceSkipping c).keyPending = s.keyPending := rfl
@[simp] theorem State.advanceSkipping_keyHeld (s : State) (c : Bool) : (s.advanceSkipping c).keyHeld = s.keyHeld := rfl
@[simp] theorem State.advanceSkipping_rand (s : State) (c : Bool) : (s.advanceSkipping c).rand = s.rand := rfl
@[simp] theorem State.advanceSkipping_draws (s : State) (c : Bool) : (s.advanceSkipping c).draws = s.draws := rfl
@[simp] theorem State.advanceSkipping_log (s : State) (c : Bool) : (s.advanceSkipping c).log = s.log := rfl
@[simp] theorem State.advanceSkipping_schedule (s : State) (c : Bool) : (s.advanceSkipping c).schedule = s.schedule := rfl
@[simp] theorem State.advanceSkipping_getV (s : State) (c : Bool) (j : Reg) : (s.advanceSkipping c).getV j = s.getV j := rfl

/-! ### `jumpTo` -/

@[simp] theorem State.jumpTo_v (s : State) (a : Word16) : (s.jumpTo a).v = s.v := rfl
@[simp] theorem State.jumpTo_i (s : State) (a : Word16) : (s.jumpTo a).i = s.i := rfl
@[simp] theorem State.jumpTo_pc (s : State) (a : Word16) : (s.jumpTo a).pc = a := rfl
@[simp] theorem State.jumpTo_stack (s : State) (a : Word16) : (s.jumpTo a).stack = s.stack := rfl
@[simp] theorem State.jumpTo_dt (s : State) (a : Word16) : (s.jumpTo a).dt = s.dt := rfl
@[simp] theorem State.jumpTo_st (s : State) (a : Word16) : (s.jumpTo a).st = s.st := rfl
@[simp] theorem State.jumpTo_mem (s : State) (a : Word16) : (s.jumpTo a).mem = s.mem := rfl
@[simp] theorem State.jumpTo_disp (s : State) (a : Word16) : (s.jumpTo a).disp = s.disp := rfl
@[simp] theorem State.jumpTo_redraw (s : State) (a : Word16) : (s.jumpTo a).redraw = s.redraw := rfl
@[simp] theorem State.jumpTo_keyPending (s : State) (a : Word16) : (s.jumpTo a).keyPending = s.keyPending := rfl
@[simp] theorem State.jumpTo_keyHeld (s : State) (a : Word16) : (s.jumpTo a).keyHeld = s.keyHeld := rfl
@[simp] theorem State.jumpTo_rand (s : State) (a : Word16) : (s.jumpTo a).rand = s.rand := rfl
@[simp] theorem State.jumpTo_draws (s : State) (a : Word16) : (s.jumpTo a).draws = s.draws := rfl
@[simp] theorem State.jumpTo_log (s : State) (a : Word16) : (s.jumpTo a).log = s.log := rfl
@[simp] theorem State.jumpTo_schedule (s : State) (a : Word16) : (s.jumpTo a).schedule = s.schedule := rfl
@[simp] theorem State.jumpTo_getV (s : State) (a : Word16) (j : Reg) : (s.jumpTo a).getV j = s.getV j := rfl

/-! ### `setV` -/

@[simp] theorem State.setV_i (s : State) (k : Reg) (a : Byte) : (s.setV k a).i = s.i := rfl
@[simp] theorem State.setV_pc (s : State) (k : Reg) (a : Byte) : (s.setV k a).pc = s.pc := rfl
@[simp] theorem State.setV_stack (s : State) (k : Reg) (a : Byte) : (s.setV k a).stack = s.stack := rfl
@[simp] theorem State.setV_dt (s : State) (k : Reg) (a : Byte) : (s.setV k a).dt = s.dt := rfl
@[simp] theorem State.setV_st (s : State) (k : Reg) (a : Byte) : (s.setV k a).st = s.st := rfl
@[simp] theorem State.setV_mem (s : State) (k : Reg) (a : Byte) : (s.setV k a).mem = s.mem := rfl
@[simp] theorem State.setV_disp (s : State) (k : Reg) (a : Byte) : (s.setV k a).disp = s.disp := rfl
@[simp] theorem State.setV_redraw (s : State) (k : Reg) (a : Byte) : (s.setV k a).redraw = s.redraw := rfl
@[simp] theorem State.setV_keyPending (s : State) (k : Reg) (a : Byte) : (s.setV k a).keyPending = s.keyPending := rfl
@[simp] theorem State.setV_keyHeld (s : State) (k : Reg) (a : Byte) : (s.setV k a).keyHeld = s.keyHeld := rfl
@[simp] theorem State.setV_rand (s : State) (k : Reg) (a : Byte) : (s.setV k a).rand = s.rand := rfl
@[simp] theorem State.setV_draws (s : State) (k : Reg) (a : Byte) : (s.setV k a).draws = s.draws := rfl
@[simp] theorem State.setV_log (s : State) (k : Reg) (a : Byte) : (s.setV k a).log = s.log := rfl
@[simp] theorem State.setV_schedule (s : State) (k : Reg) (a : Byte) : (s.setV k a).schedule = s.schedule := rfl

/-! ### `setI` -/

@[simp] theorem State.setI_v (s : State) (a : Word16) : (s.setI a).v = s.v := rfl
@[simp] theorem State.setI_i (s : State) (a : Word16) : (s.setI a).i = a := rfl
@[simp] theorem State.setI_pc (s : State) (a : Word16) : (s.setI a).pc = s.pc := rfl
@[simp] theorem State.setI_stack (s : State) (a : Word16) : (s.setI a).stack = s.stack := rfl
@[simp] theorem State.setI_dt (s : State) (a : Word16) : (s.setI a).dt = s.dt := rfl
@[simp] theorem State.setI_st (s : State) (a : Word16) : (s.setI a).st = s.st := rfl
@[simp] theorem State.setI_mem (s : State) (a : Word16) : (s.setI a).mem = s.mem := rfl
@[simp] theorem State.setI_disp (s : State) (a : Word16) : (s.setI a).disp = s.disp := rfl
@[simp] theorem State.setI_redraw (s : State) (a : Word16) : (s.setI a).redraw = s.redraw := rfl
@[simp] theorem State.setI_keyPending (s : State) (a : Word16) : (s.setI a).keyPending = s.keyPending := rfl
@[simp] theorem State.setI_keyHeld (s : State) (a : Word16) : (s.setI a).keyHeld = s.keyHeld := rfl
@[simp] theorem State.setI_rand (s : State) (a : Word16) : (s.setI a).rand = s.rand := rfl
@[simp] theorem State.setI_draws (s : State) (a : Word16) : (s.setI a).draws = s.draws := rfl
@[simp] theorem State.setI_log (s : State) (a : Word16) : (s.setI a).log = s.log := rfl
@[simp] theorem State.setI_schedule (s : State) (a : Word16) : (s.setI a).schedule = s.schedule := rfl
@[simp] theorem State.setI_getV (s : State) (a : Word16) (j : Reg) : (s.setI a).getV j = s.getV j := rfl

/-! ### `setDt` -/

@[simp] theorem State.setDt_v (s : State) (a : Byte) : (s.setDt a).v = s.v := rfl
@[simp] theorem State.setDt_i (s : State) (a : Byte) : (s.setDt a).i = s.i := rfl
@[simp] theorem State.setDt_pc (s : State) (a : Byte) : (s.setDt a).pc = s.pc := rfl
@[simp] theorem State.setDt_stack (s : State) (a : Byte) : (s.setDt a).stack = s.stack := rfl
@[simp] theorem State.setDt_dt (s : State) (a : Byte) : (s.setDt a).dt = a := rfl
@[simp] theorem State.setDt_st (s : State) (a : Byte) : (s.setDt a).st = s.st := rfl
@[simp] theorem State.setDt_mem (s : State) (a : Byte) : (s.setDt a).mem = s.mem := rfl
@[simp] theorem State.setDt_disp (s : State) (a : Byte) : (s.setDt a).disp = s.disp := rfl
@[simp] theorem State.setDt_redraw (s : State) (a : Byte) : (s.setDt a).redraw = s.redraw := rfl
@[simp] theorem State.setDt_keyPending (s : State) (a : Byte) : (s.setDt a).keyPending = s.keyPending := rfl
@[simp] theorem State.setDt_keyHeld (s : State) (a : Byte) : (s.setDt a).keyHeld = s.keyHeld := rfl
@[simp] theorem State.setDt_rand (s : State) (a : Byte) : (s.setDt a).rand = s.rand := rfl
@[simp] theorem State.setDt_draws (s : State) (a : Byte) : (s.setDt a).draws = s.draws := rfl
@[simp] theorem State.setDt_log (s : State) (a : Byte) : (s.setDt a).log = s.log := rfl
@[simp] theorem State.setDt_schedule (s : State) (a : Byte) : (s.setDt a).schedule = s.schedule := rfl
@[simp] theorem State.setDt_getV (s : State) (a : Byte) (j : Reg) : (s.setDt a).getV j = s.getV j := rfl

/-! ### `setSt` -/

@[simp] theorem State.setSt_v (s : State) (a : Byte) : (s.setSt a).v = s.v := rfl
@[simp] theorem State.setSt_i (s : State) (a : Byte) : (s.setSt a).i = s.i := rfl
@[simp] theorem State.setSt_pc (s : State) (a : Byte) : (s.setSt a).pc = s.pc := rfl
@[simp] theorem State.setSt_stack (s : State) (a : Byte) : (s.setSt a).stack = s.stack := rfl
@[simp] theorem State.setSt_dt (s : State) (a : Byte) : (s.setSt a).dt = s.dt := rfl
@[simp] theorem State.setSt_st (s : State) (a : Byte) : (s.setSt a).st = a := rfl
@[simp] theorem State.setSt_mem (s : State) (a : Byte) : (s.setSt a).mem = s.mem := rfl
@[simp] theorem State.setSt_disp (s : State) (a : Byte) : (s.setSt a).disp = s.disp := rfl
@[simp] theorem State.setSt_redraw (s : State) (a : Byte) : (s.setSt a).redraw = s.redraw := rfl
@[simp] theorem State.setSt_keyPending (s : State) (a : Byte) : (s.setSt a).keyPending = s.keyPending := rfl
@[simp] theorem State.setSt_keyHeld (s : State) (a : Byte) : (s.setSt a).keyHeld = s.keyHeld := rfl
@[simp] theorem State.setSt_rand (s : State) (a : Byte) : (s.setSt a).rand = s.rand := rfl
@[simp] theorem State.setSt_draws (s : State) (a : Byte) : (s.setSt a).draws = s.draws := rfl
@[simp] theorem State.setSt_log (s : State) (a : Byte) : (s.setSt a).log = s.log := rfl
@[simp] theorem State.setSt_schedule (s : State) (a : Byte) : (s.setSt a).schedule = s.schedule := rfl
@[simp] theorem State.setSt_getV (s : State) (a : Byte) (j : Reg) : (s.setSt a).getV j = s.getV j := rfl

/-! ### `setMem` -/

@[simp] theorem State.setMem_v (s : State) (m : Memory) : (s.setMem m).v = s.v := rfl
@[simp] theorem State.setMem_i (s : State) (m : Memory) : (s.setMem m).i = s.i := rfl
@[simp] theorem State.setMem_pc (s : State) (m : Memory) : (s.setMem m).pc = s.pc := rfl
@[simp] theorem State.setMem_stack (s : State) (m : Memory) : (s.setMem m).stack = s.stack := rfl
@[simp] theorem State.setMem_dt (s : State) (m : Memory) : (s.setMem m).dt = s.dt := rfl
@[simp] theorem State.setMem_st (s : State) (m : Memory) : (s.setMem m).st = s.st := rfl
@[simp] theorem State.setMem_mem (s : State) (m : Memory) : (s.setMem m).mem = m := rfl
@[simp] theorem State.setMem_disp (s : State) (m : Memory) : (s.setMem m).disp = s.disp := rfl
@[simp] theorem State.setMem_redraw (s : State) (m : Memory) : (s.setMem m).redraw = s.redraw := rfl
@[simp] theorem State.setMem_keyPending (s : State) (m : Memory) : (s.setMem m).keyPending = s.keyPending := rfl
@[simp] theorem State.setMem_keyHeld (s : State) (m : Memory) : (s.setMem m).keyHeld = s.keyHeld := rfl
@[simp] theorem State.setMem_rand (s : State) (m : Memory) : (s.setMem m).rand = s.rand := rfl
@[simp] theorem State.setMem_draws (s : State) (m : Memory) : (s.setMem m).draws = s.draws := rfl
@[simp] theorem State.setMem_log (s : State) (m : Memory) : (s.setMem m).log = s.log := rfl
@[simp] theorem State.setMem_schedule (s : State) (m : Memory) : (s.setMem m).schedule = s.schedule := rfl
@[simp] theorem State.setMem_getV (s : State) (m : Memory) (j : Reg) : (s.setMem m).getV j = s.getV j := rfl

/-! ### `setDisp` -/

@[simp] theorem State.setDisp_v (s : State) (d : Display) : (s.setDisp d).v = s.v := rfl
@[simp] theorem State.setDisp_i (s : State) (d : Display) : (s.setDisp d).i = s.i := rfl
@[simp] theorem State.setDisp_pc (s : State) (d : Display) : (s.setDisp d).pc = s.pc := rfl
@[simp] theorem State.setDisp_stack (s : State) (d : Display) : (s.setDisp d).stack = s.stack := rfl
@[simp] theorem State.setDisp_dt (s : State) (d : Display) : (s.setDisp d).dt = s.dt := rfl
@[simp] theorem State.setDisp_st (s : State) (d : Display) : (s.setDisp d).st = s.st := rfl
@[simp] theorem State.setDisp_mem (s : State) (d : Display) : (s.setDisp d).mem = s.mem := rfl
@[simp] theorem State.setDisp_disp (s : State) (d : Display) : (s.setDisp d).disp = d := rfl
@[simp] theorem State.setDisp_redraw (s : State) (d : Display) : (s.setDisp d).redraw = s.redraw := rfl
@[simp] theorem State.setDisp_keyPending (s : State) (d : Display) : (s.setDisp d).keyPending = s.keyPending := rfl
@[simp] theorem State.setDisp_keyHeld (s : State) (d : Display) : (s.setDisp d).keyHeld = s.keyHeld := rfl
@[simp] theorem State.setDisp_rand (s : State) (d : Display) : (s.setDisp d).rand = s.rand := rfl
@[simp] theorem State.setDisp_draws (s : State) (d : Display) : (s.setDisp d).draws = s.draws := rfl
@[simp] theorem State.setDisp_log (s : State) (d : Display) : (s.setDisp d).log = s.log := rfl
@[simp] theorem State.setDisp_schedule (s : State) (d : Display) : (s.setDisp d).schedule = s.schedule := rfl
@[simp] theorem State.setDisp_getV (s : State) (d : Display) (j : Reg) : (s.setDisp d).getV j = s.getV j := rfl

/-! ### `setRedraw` -/

@[simp] theorem State.setRedraw_v (s : State) (b : Bool) : (s.setRedraw b).v = s.v := rfl
@[simp] theorem State.setRedraw_i (s : State) (b : Bool) : (s.setRedraw b).i = s.i := rfl
@[simp] theorem State.setRedraw_pc (s : State) (b : Bool) : (s.setRedraw b).pc = s.pc := rfl
@[simp] theorem State.setRedraw_stack (s : State) (b : Bool) : (s.setRedraw b).stack = s.stack := rfl
@[simp] theorem State.setRedraw_dt (s : State) (b : Bool) : (s.setRedraw b).dt = s.dt := rfl
@[simp] theorem State.setRedraw_st (s : State) (b : Bool) : (s.setRedraw b).st = s.st := rfl
@[simp] theorem State.setRedraw_mem (s : State) (b : Bool) : (s.setRedraw b).mem = s.mem := rfl
@[simp] theorem State.setRedraw_disp (s : State) (b : Bool) : (s.setRedraw b).disp = s.disp := rfl
@[simp] theorem State.setRedraw_redraw (s : State) (b : Bool) : (s.setRedraw b).redraw = b := rfl
@[simp] theorem State.setRedraw_keyPending (s : State) (b : Bool) : (s.setRedraw b).keyPending = s.keyPending := rfl
@[simp] theorem State.setRedraw_keyHeld (s : State) (b : Bool) : (s.setRedraw b).keyHeld = s.keyHeld := rfl
@[simp] theorem State.setRedraw_rand (s : State) (b : Bool) : (s.setRedraw b).rand = s.rand := rfl
@[simp] theorem State.setRedraw_draws (s : State) (b : Bool) : (s.setRedraw b).draws = s.draws := rfl
@[simp] theorem State.setRedraw_log (s : State) (b : Bool) : (s.setRedraw b).log = s.log := rfl
@[simp] theorem State.setRedraw_schedule (s : State) (b : Bool) : (s.setRedraw b).schedule = s.schedule := rfl
@[simp] theorem State.setRedraw_getV (s : State) (b : Bool) (j : Reg) : (s.setRedraw b).getV j = s.getV j := rfl

/-! ### `setPending` -/

@[simp] theorem State.setPending_v (s : State) (k : Option Nibble) : (s.setPending k).v = s.v := rfl
@[simp] theorem State.setPending_i (s : State) (k : Option Nibble) : (s.setPending k).i = s.i := rfl
@[simp] theorem State.setPending_pc (s : State) (k : Option Nibble) : (s.setPending k).pc = s.pc := rfl
@[simp] theorem State.setPending_stack (s : State) (k : Option Nibble) : (s.setPending k).stack = s.stack := rfl
@[simp] theorem State.setPending_dt (s : State) (k : Option Nibble) : (s.setPending k).dt = s.dt := rfl
@[simp] theorem State.setPending_st (s : State) (k : Option Nibble) : (s.setPending k).st = s.st := rfl
@[simp] theorem State.setPending_mem (s : State) (k : Option Nibble) : (s.setPending k).mem = s.mem := rfl
@[simp] theorem State.setPending_disp (s : State) (k : Option Nibble) : (s.setPending k).disp = s.disp := rfl
@[simp] theorem State.setPending_redraw (s : State) (k : Option Nibble) : (s.setPending k).redraw = s.redraw := rfl
@[simp] theorem State.setPending_keyPending (s : State) (k : Option Nibble) : (s.setPending k).keyPending = k := rfl
@[simp] theorem State.setPending_keyHeld (s : State) (k : Option Nibble) : (s.setPending k).keyHeld = s.keyHeld := rfl
@[simp] theorem State.setPending_rand (s : State) (k : Option Nibble) : (s.setPending k).rand = s.rand := rfl
@[simp] theorem State.setPending_draws (s : State) (k : Option Nibble) : (s.setPending k).draws = s.draws := rfl
@[simp] theorem State.setPending_log (s : State) (k : Option Nibble) : (s.setPending k).log = s.log := rfl
@[simp] theorem State.setPending_schedule (s : State) (k : Option Nibble) : (s.setPending k).schedule = s.schedule := rfl
@[simp] theorem State.setPending_getV (s : State) (k : Option Nibble) (j : Reg) : (s.setPending k).getV j = s.getV j := rfl

/-! ### `setHeld` -/

@[simp] theorem State.setHeld_v (s : State) (c : Nat) (b : Bool) : (s.setHeld c b).v = s.v := rfl
@[simp] theorem State.setHeld_i (s : State) (c : Nat) (b : Bool) : (s.setHeld c b).i = s.i := rfl
@[simp] theorem State.setHeld_pc (s : State) (c : Nat) (b : Bool) : (s.setHeld c b).pc = s.pc := rfl
@[simp] theorem State.setHeld_stack (s : State) (c : Nat) (b : Bool) : (s.setHeld c b).stack = s.stack := rfl
@[simp] theorem State.setHeld_dt (s : State) (c : Nat) (b : Bool) : (s.setHeld c b).dt = s.dt := rfl
@[simp] theorem State.setHeld_st (s : State) (c : Nat) (b : Bool) : (s.setHeld c b).st = s.st := rfl
@[simp] theorem State.setHeld_mem (s : State) (c : Nat) (b : Bool) : (s.setHeld c b).mem = s.mem := rfl
@[simp] theorem State.setHeld_disp (s : State) (c : Nat) (b : Bool) : (s.setHeld c b).disp = s.disp := rfl
@[simp] theorem State.setHeld_redraw (s : State) (c : Nat) (b : Bool) : (s.setHeld c b).redraw = s.redraw := rfl
@[simp] theorem State.setHeld_keyPending (s : State) (c : Nat) (b : Bool) : (s.setHeld c b).keyPending = s.keyPending := rfl
@[simp] theorem State.setHeld_rand (s : State) (c : Nat) (b : Bool) : (s.setHeld c b).rand = s.rand := rfl
@[simp] theorem State.setHeld_draws (s : State) (c : Nat) (b : Bool) : (s.setHeld c b).draws = s.draws := rfl
@[simp] theorem State.setHeld_log (s : State) (c : Nat) (b : Bool) : (s.setHeld c b).log = s.log := rfl
@[simp] theorem State.setHeld_schedule (s : State) (c : Nat) (b : Bool) : (s.setHeld c b).schedule = s.schedule := rfl
@[simp] theorem State.setHeld_getV (s : State) (c : Nat) (b : Bool) (j : Reg) : (s.setHeld c b).getV j = s.getV j := rfl

/-! ### `setRand` -/

@[simp] theorem State.setRand_v (s : State) (r : Byte) : (s.setRand r).v = s.v := rfl
@[simp] theorem State.setRand_i (s : State) (r : Byte) : (s.setRand r).i = s.i := rfl
@[simp] theorem State.setRand_pc (s : State) (r : Byte) : (s.setRand r).pc = s.pc := rfl
@[simp] theorem State.setRand_stack (s : State) (r : Byte) : (s.setRand r).stack = s.stack := rfl
@[simp] theorem State.setRand_dt (s : State) (r : Byte) : (s.setRand r).dt = s.dt := rfl
@[simp] theorem State.setRand_st (s : State) (r : Byte) : (s.setRand r).st = s.st := rfl
@[simp] theorem State.setRand_mem (s : State) (r : Byte) : (s.setRand r).mem = s.mem := rfl
@[simp] theorem State.setRand_disp (s : State) (r : Byte) : (s.setRand r).disp = s.disp := rfl
@[simp] theorem State.setRand_redraw (s : State) (r : Byte) : (s.setRand r).redraw = s.redraw := rfl
@[simp] theorem State.setRand_keyPending (s : State) (r : Byte) : (s.setRand r).keyPending = s.keyPending := rfl
@[simp] theorem State.setRand_keyHeld (s : State) (r : Byte) : (s.setRand r).keyHeld = s.keyHeld := rfl
@[simp] theorem State.setRand_rand (s : State) (r : Byte) : (s.setRand r).rand = r := rfl
@[simp] theorem State.setRand_draws (s : State) (r : Byte) : (s.setRand r).draws = s.draws := rfl
@[simp] theorem State.setRand_log (s : State) (r : Byte) : (s.setRand r).log = s.log := rfl
@[simp] theorem State.setRand_schedule (s : State) (r : Byte) : (s.setRand r).schedule = s.schedule := rfl
@[simp] theorem State.setRand_getV (s : State) (r : Byte) (j : Reg) : (s.setRand r).getV j = s.getV j := rfl

/-! ### `countDraw` -/

@[simp] theorem State.countDraw_v (s : State) : (s.countDraw).v = s.v := rfl
@[simp] theorem State.countDraw_i (s : State) : (s.countDraw).i = s.i := rfl
@[simp] theorem State.countDraw_pc (s : State) : (s.countDraw).pc = s.pc := rfl
@[simp] theorem State.countDraw_stack (s : State) : (s.countDraw).stack = s.stack := rfl
@[simp] theorem State.countDraw_dt (s : State) : (s.countDraw).dt = s.dt := rfl
@[simp] theorem State.countDraw_st (s : State) : (s.countDraw).st = s.st := rfl
@[simp] theorem State.countDraw_mem (s : State) : (s.countDraw).mem = s.mem := rfl
@[simp] theorem State.countDraw_disp (s : State) : (s.countDraw).disp = s.disp := rfl
@[simp] theorem State.countDraw_redraw (s : State) : (s.countDraw).redraw = s.redraw := rfl
@[simp] theorem State.countDraw_keyPending (s : State) : (s.countDraw).keyPending = s.keyPending := rfl
@[simp] theorem State.countDraw_keyHeld (s : State) : (s.countDraw).keyHeld = s.keyHeld := rfl
@[simp] theorem State.countDraw_rand (s : State) : (s.countDraw).rand = s.rand := rfl
@[simp] theorem State.countDraw_draws (s : State) : (s.countDraw).draws = s.draws + 1 := rfl
@[simp] theorem State.countDraw_log (s : State) : (s.countDraw).log = s.log := rfl
@[simp] theorem State.countDraw_schedule (s : State) : (s.countDraw).schedule = s.schedule := rfl
@[simp] theorem State.countDraw_getV (s : State) (j : Reg) : (s.countDraw).getV j = s.getV j := rfl

/-! ### `setSchedule` -/

@[simp] theorem State.setSchedule_v (s : State) (es : List Event) : (s.setSchedule es).v = s.v := rfl
@[simp] theorem State.setSchedule_i (s : State) (es : List Event) : (s.setSchedule es).i = s.i := rfl
@[simp] theorem State.setSchedule_pc (s : State) (es : List Event) : (s.setSchedule es).pc = s.pc := rfl
@[simp] theorem State.setSchedule_stack (s : State) (es : List Event) : (s.setSchedule es).stack = s.stack := rfl
@[simp] theorem State.setSchedule_dt (s : State) (es : List Event) : (s.setSchedule es).dt = s.dt := rfl
@[simp] theorem State.setSchedule_st (s : State) (es : List Event) : (s.setSchedule es).st = s.st := rfl
@[simp] theorem State.setSchedule_mem (s : State) (es : List Event) : (s.setSchedule es).mem = s.mem := rfl
@[simp] theorem State.setSchedule_disp (s : State) (es : List Event) : (s.setSchedule es).disp = s.disp := rfl
@[simp] theorem State.setSchedule_redraw (s : State) (es : List Event) : (s.setSchedule es).redraw = s.redraw := rfl
@[simp] theorem State.setSchedule_keyPending (s : State) (es : List Event) : (s.setSchedule es).keyPending = s.keyPending := rfl
@[simp] theorem State.setSchedule_keyHeld (s : State) (es : List Event) : (s.setSchedule es).keyHeld = s.keyHeld := rfl
@[simp] theorem State.setSchedule_rand (s : State) (es : List Event) : (s.setSchedule es).rand = s.rand := rfl
@[simp] theorem State.setSchedule_draws (s : State) (es : List Event) : (s.setSchedule es).draws = s.draws := rfl
@[simp] theorem State.setSchedule_log (s : State) (es : List Event) : (s.setSchedule es).log = s.log := rfl
@[simp] theorem State.setSchedule_schedule (s : State) (es : List Event) : (s.setSchedule es).schedule = es := rfl
@[simp] theorem State.setSchedule_getV (s : State) (es : List Event) (j : Reg) : (s.setSchedule es).getV j = s.getV j := rfl

/-! ### `push` -/

@[simp] theorem State.push_v (s : State) (a : Word16) : (s.push a).v = s.v := rfl
@[simp] theorem State.push_i (s : State) (a : Word16) : (s.push a).i = s.i := rfl
@[simp] theorem State.push_pc (s : State) (a : Word16) : (s.push a).pc = s.pc := rfl
@[simp] theorem State.push_stack (s : State) (a : Word16) : (s.push a).stack = s.stack ++ [a] := rfl
@[simp] theorem State.push_dt (s : State) (a : Word16) : (s.push a).dt = s.dt := rfl
@[simp] theorem State.push_st (s : State) (a : Word16) : (s.push a).st = s.st := rfl
@[simp] theorem State.push_mem (s : State) (a : Word16) : (s.push a).mem = s.mem := rfl
@[simp] theorem State.push_disp (s : State) (a : Word16) : (s.push a).disp = s.disp := rfl
@[simp] theorem State.push_redraw (s : State) (a : Word16) : (s.push a).redraw = s.redraw := rfl
@[simp] theorem State.push_keyPending (s : State) (a : Word16) : (s.push a).keyPending = s.keyPending := rfl
@[simp] theorem State.push_keyHeld (s : State) (a : Word16) : (s.push a).keyHeld = s.keyHeld := rfl
@[simp] theorem State.push_rand (s : State) (a : Word16) : (s.push a).rand = s.rand := rfl
@[simp] theorem State.push_draws (s : State) (a : Word16) : (s.push a).draws = s.draws := rfl
@[simp] theorem State.push_log (s : State) (a : Word16) : (s.push a).log = s.log := rfl
@[simp] theorem State.push_schedule (s : State) (a : Word16) : (s.push a).schedule = s.schedule := rfl
@[simp] theorem State.push_getV (s : State) (a : Word16) (j : Reg) : (s.push a).getV j = s.getV j := rfl

/-! ### `dropTop` -/

@[simp] theorem State.dropTop_v (s : State) : (s.dropTop).v = s.v := rfl
@[simp] theorem State.dropTop_i (s : State) : (s.dropTop).i = s.i := rfl
@[simp] theorem State.dropTop_pc (s : State) : (s.dropTop).pc = s.pc := rfl
@[simp] theorem State.dropTop_stack (s : State) : (s.dropTop).stack = s.stack.dropLast := rfl
@[simp] theorem State.dropTop_dt (s : State) : (s.dropTop).dt = s.dt := rfl
@[simp] theorem State.dropTop_st (s : State) : (s.dropTop).st = s.st := rfl
@[simp] theorem State.dropTop_mem (s : State) : (s.dropTop).mem = s.mem := rfl
@[simp] theorem State.dropTop_disp (s : State) : (s.dropTop).disp = s.disp := rfl
@[simp] theorem State.dropTop_redraw (s : State) : (s.dropTop).redraw = s.redraw := rfl
@[simp] theorem State.dropTop_keyPending (s : State) : (s.dropTop).keyPending = s.keyPending := rfl
@[simp] theorem State.dropTop_keyHeld (s : State) : (s.dropTop).keyHeld = s.keyHeld := rfl
@[simp] theorem State.dropTop_rand (s : State) : (s.dropTop).rand = s.rand := rfl
@[simp] theorem State.dropTop_draws (s : State) : (s.dropTop).draws = s.draws := rfl
@[simp] theorem State.dropTop_log (s : State) : (s.dropTop).log = s.log := rfl
@[simp] theorem State.dropTop_schedule (s : State) : (s.dropTop).schedule = s.schedule := rfl
@[simp] theorem State.dropTop_getV (s : State) (j : Reg) : (s.dropTop).getV j = s.getV j := rfl

/-! ### `setFlag` -/

@[simp] theorem State.setFlag_i (s : State) (b : Bool) : (s.setFlag b).i = s.i := rfl
@[simp] theorem State.setFlag_pc (s : State) (b : Bool) : (s.setFlag b).pc = s.pc := rfl
@[simp] theorem State.setFlag_stack (s : State) (b : Bool) : (s.setFlag b).stack = s.stack := rfl
@[simp] theorem State.setFlag_dt (s : State) (b : Bool) : (s.setFlag b).dt = s.dt := rfl
@[simp] theorem State.setFlag_st (s : State) (b : Bool) : (s.setFlag b).st = s.st := rfl
@[simp] theorem State.setFlag_mem (s : State) (b : Bool) : (s.setFlag b).mem = s.mem := rfl
@[simp] theorem State.setFlag_disp (s : State) (b : Bool) : (s.setFlag b).disp = s.disp := rfl
@[simp] theorem State.setFlag_redraw (s : State) (b : Bool) : (s.setFlag b).redraw = s.redraw := rfl
@[simp] theorem State.setFlag_keyPending (s : State) (b : Bool) : (s.setFlag b).keyPending = s.keyPending := rfl
@[simp] theorem State.setFlag_keyHeld (s : State) (b : Bool) : (s.setFlag b).keyHeld = s.keyHeld := rfl
@[simp] theorem State.setFlag_rand (s : State) (b : Bool) : (s.setFlag b).rand = s.rand := rfl
@[simp] theorem State.setFlag_draws (s : State) (b : Bool) : (s.setFlag b).draws = s.draws := rfl
@[simp] theorem State.setFlag_log (s : State) (b : Bool) : (s.setFlag b).log = s.log := rfl
@[simp] theorem State.setFlag_schedule (s : State) (b : Bool) : (s.setFlag b).schedule = s.schedule := rfl
@[simp] theorem State.setFlag_getV_flag (s : State) (b : Bool) : (s.setFlag b).getV vf = flagByte b :=
  State.getV_setV_same s vf (flagByte b)

theorem State.setFlag_getV_other (s : State) (b : Bool) {j : Reg} (h : j ≠ vf) : (s.setFlag b).getV j = s.getV j :=
  State.getV_setV_other s (flagByte b) h

/-! ### `writeResultAndFlag` -/

@[simp] theorem State.writeResultAndFlag_i (s : State) (x : Reg) (r : Byte) (b : Bool) : (s.writeResultAndFlag x r b).i = s.i := rfl
@[simp] theorem State.writeResultAndFlag_stack (s : State) (x : Reg) (r : Byte) (b : Bool) : (s.writeResultAndFlag x r b).stack = s.stack := rfl
@[simp] theorem State.writeResultAndFlag_dt (s : State) (x : Reg) (r : Byte) (b : Bool) : (s.writeResultAndFlag x r b).dt = s.dt := rfl
@[simp] theorem State.writeResultAndFlag_st (s : State) (x : Reg) (r : Byte) (b : Bool) : (s.writeResultAndFlag x r b).st = s.st := rfl
@[simp] theorem State.writeResultAndFlag_mem (s : State) (x : Reg) (r : Byte) (b : Bool) : (s.writeResultAndFlag x r b).mem = s.mem := rfl
@[simp] theorem State.writeResultAndFlag_disp (s : State) (x : Reg) (r : Byte) (b : Bool) : (s.writeResultAndFlag x r b).disp = s.disp := rfl
@[simp] theorem State.writeResultAndFlag_redraw (s : State) (x : Reg) (r : Byte) (b : Bool) : (s.writeResultAndFlag x r b).redraw = s.redraw := rfl
@[simp] theorem State.writeResultAndFlag_keyPending (s : State) (x : Reg) (r : Byte) (b : Bool) : (s.writeResultAndFlag x r b).keyPending = s.keyPending := rfl
@[simp] theorem State.writeResultAndFlag_keyHeld (s : State) (x : Reg) (r : Byte) (b : Bool) : (s.writeResultAndFlag x r b).keyHeld = s.keyHeld := rfl
@[simp] theorem State.writeResultAndFlag_rand (s : State) (x : Reg) (r : Byte) (b : Bool) : (s.writeResultAndFlag x r b).rand = s.rand := rfl
@[simp] theorem State.writeResultAndFlag_draws (s : State) (x : Reg) (r : Byte) (b : Bool) : (s.writeResultAndFlag x r b).draws = s.draws := rfl
@[simp] theorem State.writeResultAndFlag_log (s : State) (x : Reg) (r : Byte) (b : Bool) : (s.writeResultAndFlag x r b).log = s.log := rfl
@[simp] theorem State.writeResultAndFlag_schedule (s : State) (x : Reg) (r : Byte) (b : Bool) : (s.writeResultAndFlag x r b).schedule = s.schedule := rfl
@[simp] theorem State.writeResultAndFlag_pc (s : State) (x : Reg) (r : Byte) (b : Bool) :
    (s.writeResultAndFlag x r b).pc = s.pc + 2 := rfl

/-- The flag register holds the flag, even when it is the result register (R23). -/
@[simp] theorem State.writeResultAndFlag_getV_flag (s : State) (x : Reg) (r : Byte) (b : Bool) :
    (s.writeResultAndFlag x r b).getV vf = flagByte b := State.setFlag_getV_flag _ _

/-- Any other register: the result register holds the result, the rest are unchanged. -/
theorem State.writeResultAndFlag_getV_other (s : State) (x : Reg) (r : Byte) (b : Bool) {j : Reg} (h : j ≠ vf) :
    (s.writeResultAndFlag x r b).getV j = if j = x then r else s.getV j := by
  have := State.setFlag_getV_other (s.setV x r) b h
  rw [State.getV_setV] at this
  exact this

end Sys2Proof.Machine
end

