-- ==== Sys2Proof/Laws/Ops.lean ====
section
/-! SUPPORT. One spec lemma per shared operation: everything the operation can do, said once. -/

namespace Sys2Proof.Machine

open Sys2Proof.Safety

/-! ### Arithmetic (41_load_arith.md R141) -/

theorem toNat_sum8 (a b : Byte) : (sum8 a b).toNat = (a.toNat + b.toNat) % 256 := by simp [sum8]

theorem toNat_difference8 (a b : Byte) : (difference8 a b).toNat = (a.toNat + 256 - b.toNat) % 256 := by
  simp [difference8]

theorem toNat_shiftRight1 (a : Byte) : (shiftRight1 a).toNat = a.toNat / 2 := by
  have := a.isLt
  simp [shiftRight1]
  omega

theorem toNat_shiftLeft1 (a : Byte) : (shiftLeft1 a).toNat = 2 * a.toNat % 256 := by simp [shiftLeft1]

/-- A flag write stores exactly 0x00 or 0x01 (R22). -/
theorem flagByte_cases (b : Bool) : flagByte b = 0x00 ∨ flagByte b = 0x01 := by cases b <;> simp [flagByte]

theorem toNat_zextAddr (nnn : Addr12) : (zextAddr nnn).toNat = nnn.toNat := by
  have := nnn.isLt
  simp [zextAddr]
  omega

theorem toNat_zextByte (a : Byte) : (zextByte a).toNat = a.toNat := by
  have := a.isLt
  simp [zextByte]
  omega

theorem toNat_zextNibble (k : Nibble) : (zextNibble k).toNat = k.toNat := by
  have := k.isLt
  simp [zextNibble]
  omega

theorem toNat_glyphAddr (a : Byte) : (glyphAddr a).toNat = 5 * (a.toNat % 16) := by
  have : 5 * (a.toNat % 16) < 65536 := by omega
  simp [glyphAddr, Nat.mod_eq_of_lt this]

/-! ### The call stack (R29) -/

theorem State.pop_nil {s : State} (h : s.stack = []) : s.pop = none := by simp [State.pop, h]

theorem State.pop_append {s : State} {rest : List Word16} {a : Word16} (h : s.stack = rest ++ [a]) :
    s.pop = some (a, s.dropTop) ∧ s.dropTop.stack = rest := by simp [State.pop, h]

/-- Everything a pop can answer. -/
theorem State.pop_cases (s : State) :
    (s.stack = [] ∧ s.pop = none) ∨ ∃ rest a, s.stack = rest ++ [a] ∧ s.pop = some (a, s.dropTop) := by
  rcases List.eq_nil_or_concat s.stack with h | ⟨rest, a, h⟩
  · exact .inl ⟨h, State.pop_nil h⟩
  · exact .inr ⟨rest, a, by simpa using h, (State.pop_append (by simpa using h)).1⟩

/-! ### The access primitives (R53, R54) -/

/-- Everything a read can answer. -/
theorem State.memRead_cases (s : State) (a : Nat) :
    (a < Config.memSize ∧ s.memRead a = (some (s.mem.get a), s)) ∨
      (Config.memSize ≤ a ∧ s.memRead a = (none, s.raise (.memOutOfRange .read a))) := by
  by_cases h : a < Config.memSize
  · exact .inl ⟨h, by simp [State.memRead, addrExists, h]⟩
  · exact .inr ⟨by omega, by simp [State.memRead, addrExists, h]⟩

/-- Everything a write can do. -/
theorem State.memWrite_cases (s : State) (a : Nat) (v : Byte) :
    (addrWritable a = true ∧ s.memWrite a v = s.setMem (s.mem.set a v)) ∨
      (addrWritable a = false ∧ s.memWrite a v = s.raise (.memOutOfRange .write a)) := by
  cases h : addrWritable a <;> simp [State.memWrite, h]

theorem addrWritable_iff (a : Nat) : addrWritable a = true ↔ Config.progBase ≤ a ∧ a < Config.memSize := by
  simp [addrWritable]

theorem addrExists_iff (a : Nat) : addrExists a = true ↔ a < Config.memSize := by simp [addrExists]

theorem refusals_cons (kind : Access) (allowed : Nat → Bool) (a : Nat) (rest : List Nat) :
    refusals kind allowed (a :: rest) =
      (if allowed a then [] else [.memOutOfRange kind a]) ++ refusals kind allowed rest := by
  cases h : allowed a <;> simp [refusals, h]

/-! ### Block writes (R56) -/

/-- A block write keeps whatever writing memory and raising a report keep. -/
theorem State.memWriteBytes_keeps {α : Type} (f : State → α) (hm : ∀ s m, f (s.setMem m) = f s)
    (hr : ∀ s r, f (s.raise r) = f s) (bytes : List Byte) (s : State) (a : Nat) :
    f (s.memWriteBytes a bytes) = f s := by
  induction bytes generalizing s a with
  | nil => rfl
  | cons v rest ih =>
    rw [State.memWriteBytes, ih]
    rcases State.memWrite_cases s a v with ⟨_, h⟩ | ⟨_, h⟩ <;> simp [h, hm, hr]

/-! A block write leaves every field but memory and the log alone. -/

@[simp] theorem State.memWriteBytes_v (s : State) (a : Nat) (bytes : List Byte) :
    (s.memWriteBytes a bytes).v = s.v := State.memWriteBytes_keeps State.v (fun _ _ => rfl) (fun _ _ => rfl) bytes s a
@[simp] theorem State.memWriteBytes_i (s : State) (a : Nat) (bytes : List Byte) :
    (s.memWriteBytes a bytes).i = s.i := State.memWriteBytes_keeps State.i (fun _ _ => rfl) (fun _ _ => rfl) bytes s a
@[simp] theorem State.memWriteBytes_pc (s : State) (a : Nat) (bytes : List Byte) :
    (s.memWriteBytes a bytes).pc = s.pc := State.memWriteBytes_keeps State.pc (fun _ _ => rfl) (fun _ _ => rfl) bytes s a
@[simp] theorem State.memWriteBytes_stack (s : State) (a : Nat) (bytes : List Byte) :
    (s.memWriteBytes a bytes).stack = s.stack := State.memWriteBytes_keeps State.stack (fun _ _ => rfl) (fun _ _ => rfl) bytes s a
@[simp] theorem State.memWriteBytes_dt (s : State) (a : Nat) (bytes : List Byte) :
    (s.memWriteBytes a bytes).dt = s.dt := State.memWriteBytes_keeps State.dt (fun _ _ => rfl) (fun _ _ => rfl) bytes s a
@[simp] theorem State.memWriteBytes_st (s : State) (a : Nat) (bytes : List Byte) :
    (s.memWriteBytes a bytes).st = s.st := State.memWriteBytes_keeps State.st (fun _ _ => rfl) (fun _ _ => rfl) bytes s a
@[simp] theorem State.memWriteBytes_disp (s : State) (a : Nat) (bytes : List Byte) :
    (s.memWriteBytes a bytes).disp = s.disp := State.memWriteBytes_keeps State.disp (fun _ _ => rfl) (fun _ _ => rfl) bytes s a
@[simp] theorem State.memWriteBytes_redraw (s : State) (a : Nat) (bytes : List Byte) :
    (s.memWriteBytes a bytes).redraw = s.redraw := State.memWriteBytes_keeps State.redraw (fun _ _ => rfl) (fun _ _ => rfl) bytes s a
@[simp] theorem State.memWriteBytes_keyPending (s : State) (a : Nat) (bytes : List Byte) :
    (s.memWriteBytes a bytes).keyPending = s.keyPending := State.memWriteBytes_keeps State.keyPending (fun _ _ => rfl) (fun _ _ => rfl) bytes s a
@[simp] theorem State.memWriteBytes_keyHeld (s : State) (a : Nat) (bytes : List Byte) :
    (s.memWriteBytes a bytes).keyHeld = s.keyHeld := State.memWriteBytes_keeps State.keyHeld (fun _ _ => rfl) (fun _ _ => rfl) bytes s a
@[simp] theorem State.memWriteBytes_rand (s : State) (a : Nat) (bytes : List Byte) :
    (s.memWriteBytes a bytes).rand = s.rand := State.memWriteBytes_keeps State.rand (fun _ _ => rfl) (fun _ _ => rfl) bytes s a
@[simp] theorem State.memWriteBytes_draws (s : State) (a : Nat) (bytes : List Byte) :
    (s.memWriteBytes a bytes).draws = s.draws := State.memWriteBytes_keeps State.draws (fun _ _ => rfl) (fun _ _ => rfl) bytes s a
@[simp] theorem State.memWriteBytes_schedule (s : State) (a : Nat) (bytes : List Byte) :
    (s.memWriteBytes a bytes).schedule = s.schedule := State.memWriteBytes_keeps State.schedule (fun _ _ => rfl) (fun _ _ => rfl) bytes s a
@[simp] theorem State.memWriteBytes_getV (s : State) (a : Nat) (bytes : List Byte) (j : Reg) :
    (s.memWriteBytes a bytes).getV j = s.getV j :=
  State.memWriteBytes_keeps (fun s => s.getV j) (fun _ _ => rfl) (fun _ _ => rfl) bytes s a

/-- The bytes after a block write: byte `k` at the `k`-th address if that address may be written. -/
theorem State.memWriteBytes_get (bytes : List Byte) (s : State) (a b : Nat) :
    (s.memWriteBytes a bytes).mem.get b =
      if a ≤ b ∧ addrWritable b = true then (bytes[b - a]?).getD (s.mem.get b) else s.mem.get b := by
  induction bytes generalizing s a with
  | nil => simp [State.memWriteBytes]
  | cons v rest ih =>
    have hget : (s.memWrite a v).mem.get b = if b = a ∧ addrWritable b = true then v else s.mem.get b := by
      rcases State.memWrite_cases s a v with ⟨hw, h⟩ | ⟨hw, h⟩ <;> rw [h]
      · by_cases hb : b = a <;> simp [Memory.get_set, hb, hw]
      · by_cases hb : b = a <;> simp [hb, hw]
    rw [State.memWriteBytes, ih, hget]
    rcases Nat.lt_trichotomy b a with h | h | h
    · have h1 : ¬ a ≤ b := by omega
      have h2 : ¬ a + 1 ≤ b := by omega
      have h3 : ¬ b = a := by omega
      simp [h1, h2, h3]
    · subst h
      cases hw : addrWritable b <;> simp
    · have h1 : a ≤ b := by omega
      have h2 : a + 1 ≤ b := by omega
      have h3 : ¬ b = a := by omega
      have h4 : b - a = (b - (a + 1)) + 1 := by omega
      simp [h1, h2, h3, h4]

/-- The reports of a block write: one for each refused access, in ascending order. -/
theorem State.memWriteBytes_log (bytes : List Byte) (s : State) (a : Nat) :
    (s.memWriteBytes a bytes).log = s.log ++ refusals .write addrWritable (List.range' a bytes.length) := by
  induction bytes generalizing s a with
  | nil => simp [State.memWriteBytes, refusals]
  | cons v rest ih =>
    rw [State.memWriteBytes, ih, List.length_cons, List.range'_succ, refusals_cons]
    rcases State.memWrite_cases s a v with ⟨hw, h⟩ | ⟨hw, h⟩ <;> simp [h, hw]

/-- A block write keeps the canonical form of memory. -/
theorem State.memWriteBytes_wf (bytes : List Byte) {s : State} (a : Nat) (h : s.mem.wf = true) :
    (s.memWriteBytes a bytes).mem.wf = true := by
  induction bytes generalizing s a with
  | nil => exact h
  | cons v rest ih =>
    refine ih (a + 1) ?_
    rcases State.memWrite_cases s a v with ⟨hw, e⟩ | ⟨_, e⟩ <;> rw [e]
    · exact Memory.wf_set v h ((addrWritable_iff a).mp hw).2
    · exact h

/-! ### Block reads (R56, R167) -/

/-- Everything loading one register can do. -/
theorem State.loadReg_cases (s : State) (k : Reg) (a : Nat) :
    (a < Config.memSize ∧ s.loadReg k a = s.setV k (s.mem.get a)) ∨
      (Config.memSize ≤ a ∧ s.loadReg k a = s.raise (.memOutOfRange .read a)) := by
  rcases State.memRead_cases s a with ⟨h, e⟩ | ⟨h, e⟩
  · exact .inl ⟨h, by simp [State.loadReg, e]⟩
  · exact .inr ⟨h, by simp [State.loadReg, e]⟩

/-- A block read keeps whatever writing a register and raising a report keep. -/
theorem State.loadRegs_keeps {α : Type} (f : State → α) (hv : ∀ s k a, f (s.setV k a) = f s)
    (hr : ∀ s r, f (s.raise r) = f s) (ks : List Reg) (s : State) (a : Nat) :
    f (s.loadRegs a ks) = f s := by
  induction ks generalizing s a with
  | nil => rfl
  | cons k rest ih =>
    rw [State.loadRegs, ih]
    rcases State.loadReg_cases s k a with ⟨_, h⟩ | ⟨_, h⟩ <;> simp [h, hv, hr]

/-! A block read leaves every field but the registers and the log alone. -/

@[simp] theorem State.loadRegs_i (s : State) (a : Nat) (ks : List Reg) :
    (s.loadRegs a ks).i = s.i := State.loadRegs_keeps State.i (fun _ _ _ => rfl) (fun _ _ => rfl) ks s a
@[simp] theorem State.loadRegs_pc (s : State) (a : Nat) (ks : List Reg) :
    (s.loadRegs a ks).pc = s.pc := State.loadRegs_keeps State.pc (fun _ _ _ => rfl) (fun _ _ => rfl) ks s a
@[simp] theorem State.loadRegs_stack (s : State) (a : Nat) (ks : List Reg) :
    (s.loadRegs a ks).stack = s.stack := State.loadRegs_keeps State.stack (fun _ _ _ => rfl) (fun _ _ => rfl) ks s a
@[simp] theorem State.loadRegs_dt (s : State) (a : Nat) (ks : List Reg) :
    (s.loadRegs a ks).dt = s.dt := State.loadRegs_keeps State.dt (fun _ _ _ => rfl) (fun _ _ => rfl) ks s a
@[simp] theorem State.loadRegs_st (s : State) (a : Nat) (ks : List Reg) :
    (s.loadRegs a ks).st = s.st := State.loadRegs_keeps State.st (fun _ _ _ => rfl) (fun _ _ => rfl) ks s a
@[simp] theorem State.loadRegs_mem (s : State) (a : Nat) (ks : List Reg) :
    (s.loadRegs a ks).mem = s.mem := State.loadRegs_keeps State.mem (fun _ _ _ => rfl) (fun _ _ => rfl) ks s a
@[simp] theorem State.loadRegs_disp (s : State) (a : Nat) (ks : List Reg) :
    (s.loadRegs a ks).disp = s.disp := State.loadRegs_keeps State.disp (fun _ _ _ => rfl) (fun _ _ => rfl) ks s a
@[simp] theorem State.loadRegs_redraw (s : State) (a : Nat) (ks : List Reg) :
    (s.loadRegs a ks).redraw = s.redraw := State.loadRegs_keeps State.redraw (fun _ _ _ => rfl) (fun _ _ => rfl) ks s a
@[simp] theorem State.loadRegs_keyPending (s : State) (a : Nat) (ks : List Reg) :
    (s.loadRegs a ks).keyPending = s.keyPending := State.loadRegs_keeps State.keyPending (fun _ _ _ => rfl) (fun _ _ => rfl) ks s a
@[simp] theorem State.loadRegs_keyHeld (s : State) (a : Nat) (ks : List Reg) :
    (s.loadRegs a ks).keyHeld = s.keyHeld := State.loadRegs_keeps State.keyHeld (fun _ _ _ => rfl) (fun _ _ => rfl) ks s a
@[simp] theorem State.loadRegs_rand (s : State) (a : Nat) (ks : List Reg) :
    (s.loadRegs a ks).rand = s.rand := State.loadRegs_keeps State.rand (fun _ _ _ => rfl) (fun _ _ => rfl) ks s a
@[simp] theorem State.loadRegs_draws (s : State) (a : Nat) (ks : List Reg) :
    (s.loadRegs a ks).draws = s.draws := State.loadRegs_keeps State.draws (fun _ _ _ => rfl) (fun _ _ => rfl) ks s a
@[simp] theorem State.loadRegs_schedule (s : State) (a : Nat) (ks : List Reg) :
    (s.loadRegs a ks).schedule = s.schedule := State.loadRegs_keeps State.schedule (fun _ _ _ => rfl) (fun _ _ => rfl) ks s a

/-- The reports of a block read: one for each refused access, in ascending order. -/
theorem State.loadRegs_log (ks : List Reg) (s : State) (a : Nat) :
    (s.loadRegs a ks).log = s.log ++ refusals .read addrExists (List.range' a ks.length) := by
  induction ks generalizing s a with
  | nil => simp [State.loadRegs, refusals]
  | cons k rest ih =>
    rw [State.loadRegs, ih, List.length_cons, List.range'_succ, refusals_cons]
    rcases State.loadReg_cases s k a with ⟨hw, h⟩ | ⟨hw, h⟩
    · simp [h, addrExists, hw]
    · have : ¬ a < Config.memSize := by omega
      simp [h, addrExists, this]

/-- The registers after loading `len` consecutive registers from `k` on. -/
theorem State.loadRegs_getV (len k : Nat) (s : State) (a : Nat) (j : Reg) (hk : k + len ≤ 16) :
    (s.loadRegs a ((List.range' k len).map (BitVec.ofNat 4))).getV j =
      if k ≤ j.toNat ∧ j.toNat < k + len ∧ a + (j.toNat - k) < Config.memSize
      then s.mem.get (a + (j.toNat - k)) else s.getV j := by
  induction len generalizing k s a with
  | zero =>
    have : ¬ (k ≤ j.toNat ∧ j.toNat < k + 0 ∧ a + (j.toNat - k) < Config.memSize) := by omega
    rw [if_neg this]
    rfl
  | succ len ih =>
    have hmem : (s.loadReg (BitVec.ofNat 4 k) a).mem = s.mem := by
      rcases State.loadReg_cases s (BitVec.ofNat 4 k) a with ⟨_, h⟩ | ⟨_, h⟩ <;> simp [h]
    have hreg : (s.loadReg (BitVec.ofNat 4 k) a).getV j =
        if j.toNat = k ∧ a < Config.memSize then s.mem.get a else s.getV j := by
      have hjk : j = BitVec.ofNat 4 k ↔ j.toNat = k := by
        rw [← BitVec.toNat_inj, BitVec.toNat_ofNat, Nat.mod_eq_of_lt (by omega)]
      rcases State.loadReg_cases s (BitVec.ofNat 4 k) a with ⟨hw, h⟩ | ⟨hw, h⟩
      · rw [h, State.getV_setV]
        by_cases hj : j.toNat = k <;> simp [hjk, hj, hw]
      · have : ¬ (j.toNat = k ∧ a < Config.memSize) := by omega
        rw [h, if_neg this, State.raise_getV]
    rw [List.range'_succ, List.map_cons, State.loadRegs, ih (k + 1) _ (a + 1) (by omega), hmem, hreg]
    rcases Nat.lt_trichotomy j.toNat k with h | h | h
    · rw [if_neg (by omega), if_neg (by omega), if_neg (by omega)]
    · rw [if_neg (by omega)]
      by_cases hw : a < Config.memSize
      · rw [if_pos ⟨h, hw⟩, if_pos ⟨by omega, by omega, by omega⟩, show a + (j.toNat - k) = a by omega]
      · rw [if_neg (by omega), if_neg (by omega)]
    · have e : a + 1 + (j.toNat - (k + 1)) = a + (j.toNat - k) := by omega
      rw [e]
      by_cases hc : j.toNat < k + (len + 1) ∧ a + (j.toNat - k) < Config.memSize
      · rw [if_pos ⟨by omega, by omega, hc.2⟩, if_pos ⟨by omega, hc.1, hc.2⟩]
      · rw [if_neg (by omega), if_neg (by omega), if_neg (by omega)]

theorem regsUpTo_eq (x : Reg) : regsUpTo x = (List.range' 0 (x.toNat + 1)).map (BitVec.ofNat 4) := by
  simp [regsUpTo, List.range_eq_range']

@[simp] theorem length_regsUpTo (x : Reg) : (regsUpTo x).length = x.toNat + 1 := by simp [regsUpTo]

theorem mem_regsUpTo (x k : Reg) : k ∈ regsUpTo x ↔ k.toNat ≤ x.toNat := by
  have hk := k.isLt
  have hx := x.isLt
  simp only [regsUpTo, List.mem_map, List.mem_range]
  constructor
  · rintro ⟨n, hn, rfl⟩
    rw [BitVec.toNat_ofNat, Nat.mod_eq_of_lt (by omega)]
    omega
  · intro h
    exact ⟨k.toNat, by omega, by simp⟩

/-- The `k`-th of registers 0 to `x`. -/
theorem getElem?_map_regsUpTo {α : Type} (x : Reg) (f : Reg → α) (k : Nat) :
    ((regsUpTo x).map f)[k]? = if k ≤ x.toNat then some (f (BitVec.ofNat 4 k)) else none := by
  by_cases h : k ≤ x.toNat
  · have : k < x.toNat + 1 := by omega
    simp [regsUpTo, h, this]
  · have : ¬ k < x.toNat + 1 := by omega
    simp [regsUpTo, h]

/-! ### The fetch (R80, R81) -/

/-- Everything the fetch can answer. -/
theorem State.fetch_cases (s : State) :
    (s.canFetch = true ∧ s.fetch = some s.fetchWord) ∨ (s.canFetch = false ∧ s.fetch = none) := by
  cases h : s.canFetch <;> simp [State.fetch, h]

theorem State.canFetch_iff (s : State) : s.canFetch = true ↔ s.pc.toNat + 1 < Config.memSize := by
  simp [State.canFetch]

/-! ### Keys -/

theorem State.setHeld_get (s : State) (code : Nat) (b : Bool) (k : Fin Config.nKeys) :
    (s.setHeld code b).keyHeld[k] = if k.val = code then b else s.keyHeld[k] := by
  unfold State.setHeld
  split
  · next h =>
    by_cases e : code = k.val
    · simp [e]
    · simp [e, Ne.symm e]
  · next h =>
    have : ¬ k.val = code := by have := k.isLt; omega
    simp [this]

end Sys2Proof.Machine
end

