-- ==== Sys2Proof/Laws/Display.lean ====
section
/-! SUPPORT. The laws of the display: reading a cell after writing one, and drawing as a sequence of toggles of distinct
cells (46_display.md R191: "A sprite never overlaps itself"). -/

namespace Sys2Proof.Machine

open Sys2Proof.Safety

/-! ### Cells -/

theorem Display.cell_inside (d : Display) {x y : Nat} (hx : x < Config.dispW) (hy : y < Config.dispH) :
    d.cell x y = (d[y]'hy)[x]'hx := by simp [Display.cell, hx, hy]

theorem Display.cell_outside (d : Display) {x y : Nat} (h : ¬ (x < Config.dispW ∧ y < Config.dispH)) :
    d.cell x y = false := by
  unfold Display.cell
  rw [dif_neg h]

@[simp] theorem Display.cell_clear (x y : Nat) : Display.clear.cell x y = false := by
  by_cases h : x < Config.dispW ∧ y < Config.dispH
  · rw [Display.cell_inside _ h.1 h.2]
    simp [Display.clear]
  · exact Display.cell_outside _ h

/-- Reading any cell after writing one. -/
theorem Display.cell_setCell (d : Display) (x y px py : Nat) (b : Bool) :
    (d.setCell x y b).cell px py =
      if px = x ∧ py = y ∧ x < Config.dispW ∧ y < Config.dispH then b else d.cell px py := by
  by_cases h : x < Config.dispW ∧ y < Config.dispH
  · by_cases hp : px < Config.dispW ∧ py < Config.dispH
    · rw [Display.cell_inside _ hp.1 hp.2, Display.cell_inside _ hp.1 hp.2]
      unfold Display.setCell
      rw [dif_pos h]
      by_cases hy : y = py
      · subst hy
        by_cases hx : x = px
        · subst hx
          simp [h]
        · simp [hx, Ne.symm hx]
      · simp [hy, Ne.symm hy]
    · rw [Display.cell_outside _ hp, Display.cell_outside _ hp, if_neg]
      rintro ⟨rfl, rfl, h1, h2⟩
      exact hp ⟨h1, h2⟩
  · unfold Display.setCell
    rw [dif_neg h, if_neg]
    rintro ⟨_, _, h1, h2⟩
    exact h ⟨h1, h2⟩

/-- Two displays that read the same in every cell are the same data. -/
theorem Display.ext_cells {d e : Display} (h : ∀ px py, d.cell px py = e.cell px py) : d = e := by
  apply Vector.ext
  intro y hy
  apply Vector.ext
  intro x hx
  have := h x y
  rwa [Display.cell_inside _ hx hy, Display.cell_inside _ hx hy] at this

/-! ### Toggles -/

/-- One toggle of a cell, with the set-once collision flag. -/
def toggle (acc : Display × Bool) (p : Nat × Nat) : Display × Bool :=
  (acc.1.flipCell p.1 p.2, acc.2 || acc.1.cell p.1 p.2)

/-- Whether a cell is inside the grid. -/
def InGrid (p : Nat × Nat) : Prop := p.1 < Config.dispW ∧ p.2 < Config.dispH

theorem cell_toggle (acc : Display × Bool) {p : Nat × Nat} (hp : InGrid p) (q : Nat × Nat) :
    (toggle acc p).1.cell q.1 q.2 = (acc.1.cell q.1 q.2 ^^ decide (q = p)) := by
  unfold toggle Display.flipCell
  rw [Display.cell_setCell]
  by_cases h : q = p
  · subst h
    simp [hp.1, hp.2]
  · have : ¬ (q.1 = p.1 ∧ q.2 = p.2 ∧ p.1 < Config.dispW ∧ p.2 < Config.dispH) :=
      fun e => h (Prod.ext e.1 e.2.1)
    simp [this, h]

/-- Toggling distinct cells inverts exactly those cells. -/
theorem cell_foldl_toggle (l : List (Nat × Nat)) (acc : Display × Bool) (hl : l.Nodup) (hg : ∀ p ∈ l, InGrid p)
    (q : Nat × Nat) :
    (l.foldl toggle acc).1.cell q.1 q.2 = (acc.1.cell q.1 q.2 ^^ decide (q ∈ l)) := by
  induction l generalizing acc with
  | nil => simp
  | cons p l ih =>
    rw [List.nodup_cons] at hl
    rw [List.foldl_cons, ih _ hl.2 (fun r hr => hg r (by simp [hr])), cell_toggle _ (hg p (by simp))]
    by_cases h : q = p
    · subst h
      simp [hl.1]
    · simp [h]

/-- Toggling distinct cells collides exactly when one of them was on. -/
theorem collision_foldl_toggle (l : List (Nat × Nat)) (acc : Display × Bool) (hl : l.Nodup)
    (hg : ∀ p ∈ l, InGrid p) :
    (l.foldl toggle acc).2 = (acc.2 || l.any (fun p => acc.1.cell p.1 p.2)) := by
  induction l generalizing acc with
  | nil => simp
  | cons p l ih =>
    rw [List.nodup_cons] at hl
    rw [List.foldl_cons, ih _ hl.2 (fun r hr => hg r (by simp [hr]))]
    have hany : l.any (fun r => (toggle acc p).1.cell r.1 r.2) = l.any (fun r => acc.1.cell r.1 r.2) := by
      rw [Bool.eq_iff_iff, List.any_eq_true, List.any_eq_true]
      refine exists_congr fun r => and_congr_right fun hr => ?_
      have : r ≠ p := fun e => hl.1 (e ▸ hr)
      rw [cell_toggle _ (hg p (by simp))]
      simp [this]
    rw [hany]
    simp [toggle, Bool.or_assoc]

/-! ### Sprites as toggles -/

/-- The cells one row byte toggles, for a list of columns. -/
def byteCells (vx y : Nat) (b : Byte) (cols : List Nat) : List (Nat × Nat) :=
  (cols.filter (fun c => b.getLsbD (7 - c))).map (fun c => ((vx + c) % Config.dispW, y % Config.dispH))

theorem foldl_drawBit (vx y : Nat) (b : Byte) (cols : List Nat) (acc : Display × Bool) :
    cols.foldl (drawBit vx y b) acc = (byteCells vx y b cols).foldl toggle acc := by
  induction cols generalizing acc with
  | nil => rfl
  | cons c cols ih =>
    rw [List.foldl_cons, ih]
    unfold drawBit byteCells
    cases h : b.getLsbD (7 - c) <;> simp [h, toggle]

/-- The cells one sprite row toggles: none when its byte does not exist. -/
def rowCells (s : State) (vx vy r : Nat) : List (Nat × Nat) :=
  if s.blockAddr r < Config.memSize then byteCells vx (vy + r) (s.mem.get (s.blockAddr r)) (List.range 8) else []

/-- Everything drawing one row can do. -/
theorem drawRow_eq (vx vy : Nat) (acc : State × Bool) (r : Nat) :
    drawRow vx vy acc r =
      let drawn := (rowCells acc.1 vx vy r).foldl toggle (acc.1.disp, acc.2)
      if acc.1.blockAddr r < Config.memSize then (acc.1.setDisp drawn.1, drawn.2)
      else (acc.1.raise (.memOutOfRange .read (acc.1.blockAddr r)), acc.2) := by
  rcases State.memRead_cases acc.1 (acc.1.blockAddr r) with ⟨h, e⟩ | ⟨h, e⟩
  · simp [drawRow, e, rowCells, h, drawByte, foldl_drawBit]
  · have : ¬ acc.1.blockAddr r < Config.memSize := by omega
    simp [drawRow, e, this]

/-- Drawing keeps whatever writing the display and raising a report keep. -/
theorem foldl_drawRow_keeps {α : Type} (f : State → α) (hd : ∀ s d, f (s.setDisp d) = f s)
    (hr : ∀ s r, f (s.raise r) = f s) (vx vy : Nat) (rows : List Nat) (acc : State × Bool) :
    f (rows.foldl (drawRow vx vy) acc).1 = f acc.1 := by
  induction rows generalizing acc with
  | nil => rfl
  | cons r rows ih =>
    rw [List.foldl_cons, ih, drawRow_eq]
    dsimp only
    split <;> simp [hd, hr]

/-! Drawing a sprite leaves every field but the display and the log alone. -/

@[simp] theorem drawSprite_v (vx vy n : Nat) (s : State) : (drawSprite vx vy n s).1.v = s.v :=
  foldl_drawRow_keeps State.v (fun _ _ => rfl) (fun _ _ => rfl) vx vy _ _
@[simp] theorem drawSprite_i (vx vy n : Nat) (s : State) : (drawSprite vx vy n s).1.i = s.i :=
  foldl_drawRow_keeps State.i (fun _ _ => rfl) (fun _ _ => rfl) vx vy _ _
@[simp] theorem drawSprite_pc (vx vy n : Nat) (s : State) : (drawSprite vx vy n s).1.pc = s.pc :=
  foldl_drawRow_keeps State.pc (fun _ _ => rfl) (fun _ _ => rfl) vx vy _ _
@[simp] theorem drawSprite_stack (vx vy n : Nat) (s : State) : (drawSprite vx vy n s).1.stack = s.stack :=
  foldl_drawRow_keeps State.stack (fun _ _ => rfl) (fun _ _ => rfl) vx vy _ _
@[simp] theorem drawSprite_dt (vx vy n : Nat) (s : State) : (drawSprite vx vy n s).1.dt = s.dt :=
  foldl_drawRow_keeps State.dt (fun _ _ => rfl) (fun _ _ => rfl) vx vy _ _
@[simp] theorem drawSprite_st (vx vy n : Nat) (s : State) : (drawSprite vx vy n s).1.st = s.st :=
  foldl_drawRow_keeps State.st (fun _ _ => rfl) (fun _ _ => rfl) vx vy _ _
@[simp] theorem drawSprite_mem (vx vy n : Nat) (s : State) : (drawSprite vx vy n s).1.mem = s.mem :=
  foldl_drawRow_keeps State.mem (fun _ _ => rfl) (fun _ _ => rfl) vx vy _ _
@[simp] theorem drawSprite_redraw (vx vy n : Nat) (s : State) : (drawSprite vx vy n s).1.redraw = s.redraw :=
  foldl_drawRow_keeps State.redraw (fun _ _ => rfl) (fun _ _ => rfl) vx vy _ _
@[simp] theorem drawSprite_keyPending (vx vy n : Nat) (s : State) : (drawSprite vx vy n s).1.keyPending = s.keyPending :=
  foldl_drawRow_keeps State.keyPending (fun _ _ => rfl) (fun _ _ => rfl) vx vy _ _
@[simp] theorem drawSprite_keyHeld (vx vy n : Nat) (s : State) : (drawSprite vx vy n s).1.keyHeld = s.keyHeld :=
  foldl_drawRow_keeps State.keyHeld (fun _ _ => rfl) (fun _ _ => rfl) vx vy _ _
@[simp] theorem drawSprite_rand (vx vy n : Nat) (s : State) : (drawSprite vx vy n s).1.rand = s.rand :=
  foldl_drawRow_keeps State.rand (fun _ _ => rfl) (fun _ _ => rfl) vx vy _ _
@[simp] theorem drawSprite_draws (vx vy n : Nat) (s : State) : (drawSprite vx vy n s).1.draws = s.draws :=
  foldl_drawRow_keeps State.draws (fun _ _ => rfl) (fun _ _ => rfl) vx vy _ _
@[simp] theorem drawSprite_schedule (vx vy n : Nat) (s : State) : (drawSprite vx vy n s).1.schedule = s.schedule :=
  foldl_drawRow_keeps State.schedule (fun _ _ => rfl) (fun _ _ => rfl) vx vy _ _
@[simp] theorem drawSprite_getV (vx vy n : Nat) (s : State) (j : Reg) : (drawSprite vx vy n s).1.getV j = s.getV j :=
  foldl_drawRow_keeps (fun s => s.getV j) (fun _ _ => rfl) (fun _ _ => rfl) vx vy _ _

/-- The display and the collision flag after drawing rows: their cells toggled one after the other. -/
theorem foldl_drawRow_disp (vx vy : Nat) (rows : List Nat) (acc : State × Bool) :
    ((rows.foldl (drawRow vx vy) acc).1.disp, (rows.foldl (drawRow vx vy) acc).2) =
      (rows.flatMap (rowCells acc.1 vx vy)).foldl toggle (acc.1.disp, acc.2) := by
  induction rows generalizing acc with
  | nil => rfl
  | cons r rows ih =>
    have hmem : (drawRow vx vy acc r).1.mem = acc.1.mem :=
      foldl_drawRow_keeps State.mem (fun _ _ => rfl) (fun _ _ => rfl) vx vy [r] acc
    have hi : (drawRow vx vy acc r).1.i = acc.1.i :=
      foldl_drawRow_keeps State.i (fun _ _ => rfl) (fun _ _ => rfl) vx vy [r] acc
    have hcells : rowCells (drawRow vx vy acc r).1 vx vy = rowCells acc.1 vx vy := by
      funext k
      unfold rowCells State.blockAddr
      rw [hmem, hi]
    have hone : ((drawRow vx vy acc r).1.disp, (drawRow vx vy acc r).2) =
        (rowCells acc.1 vx vy r).foldl toggle (acc.1.disp, acc.2) := by
      rw [drawRow_eq]
      by_cases h : acc.1.blockAddr r < Config.memSize <;> simp [h, rowCells]
    rw [List.foldl_cons, ih, List.flatMap_cons, List.foldl_append, hcells, hone]

/-- The reports of drawing rows: one for each row whose byte does not exist, in order. -/
theorem foldl_drawRow_log (vx vy : Nat) (rows : List Nat) (acc : State × Bool) :
    (rows.foldl (drawRow vx vy) acc).1.log =
      acc.1.log ++ refusals .read addrExists (rows.map acc.1.blockAddr) := by
  induction rows generalizing acc with
  | nil => simp [refusals]
  | cons r rows ih =>
    have hi : (drawRow vx vy acc r).1.blockAddr = acc.1.blockAddr :=
      foldl_drawRow_keeps State.blockAddr (fun _ _ => rfl) (fun _ _ => rfl) vx vy [r] acc
    rw [List.foldl_cons, ih, hi, List.map_cons, refusals_cons, drawRow_eq]
    by_cases h : acc.1.blockAddr r < Config.memSize <;> simp [h, addrExists]

/-- The cells a sprite of `n` rows toggles. -/
def spriteCells (s : State) (vx vy n : Nat) : List (Nat × Nat) := (List.range n).flatMap (rowCells s vx vy)

theorem mem_byteCells (vx y : Nat) (b : Byte) (q : Nat × Nat) :
    q ∈ byteCells vx y b (List.range 8) ↔
      ∃ c, c < 8 ∧ b.getLsbD (7 - c) = true ∧ q = ((vx + c) % Config.dispW, y % Config.dispH) := by
  simp only [byteCells, List.mem_map, List.mem_filter, List.mem_range]
  exact ⟨fun ⟨c, ⟨h1, h2⟩, h3⟩ => ⟨c, h1, h2, h3.symm⟩, fun ⟨c, h1, h2, h3⟩ => ⟨c, ⟨h1, h2⟩, h3.symm⟩⟩

theorem mem_rowCells (s : State) (vx vy r : Nat) (q : Nat × Nat) :
    q ∈ rowCells s vx vy r ↔
      s.blockAddr r < Config.memSize ∧ ∃ c, c < 8 ∧ (s.mem.get (s.blockAddr r)).getLsbD (7 - c) = true ∧
        q = ((vx + c) % Config.dispW, (vy + r) % Config.dispH) := by
  unfold rowCells
  split
  · next h => simp only [mem_byteCells, h, true_and]
  · next h => simp [h]

/-- The toggled cells are those the sprite covers. -/
theorem mem_spriteCells (s : State) (vx vy n px py : Nat) :
    (px, py) ∈ spriteCells s vx vy n ↔ SpriteCovers s vx vy n px py := by
  simp only [spriteCells, List.mem_flatMap, List.mem_range, mem_rowCells, SpriteCovers, Prod.mk.injEq]
  constructor
  · rintro ⟨r, hr, ha, c, hc, hb, hx, hy⟩
    exact ⟨r, c, hr, hc, ha, hb, hx, hy⟩
  · rintro ⟨r, c, hr, hc, ha, hb, hx, hy⟩
    exact ⟨r, hr, ha, c, hc, hb, hx, hy⟩

theorem inGrid_of_mem_spriteCells {s : State} {vx vy n : Nat} {q : Nat × Nat} (h : q ∈ spriteCells s vx vy n) :
    InGrid q := by
  obtain ⟨r, c, -, -, -, -, hx, hy⟩ := (mem_spriteCells s vx vy n q.1 q.2).mp h
  exact ⟨hx ▸ Nat.mod_lt _ (by decide), hy ▸ Nat.mod_lt _ (by decide)⟩

/-- A sprite never overlaps itself: it is at most 8 columns by 15 rows on a 64 by 32 torus (R191(b)). -/
theorem nodup_spriteCells (s : State) (vx vy : Nat) {n : Nat} (hn : n ≤ Config.dispH) :
    (spriteCells s vx vy n).Nodup := by
  unfold spriteCells
  rw [List.nodup_flatMap]
  constructor
  · intro r _
    unfold rowCells
    split
    · refine List.Nodup.map_on ?_ (List.nodup_range.filter _)
      intro c hc d hd e
      have h1 := List.mem_range.mp (List.mem_filter.mp hc).1
      have h2 := List.mem_range.mp (List.mem_filter.mp hd).1
      have := congrArg Prod.fst e
      simp only [Config.dispW] at this
      omega
    · exact List.nodup_nil
  · refine (List.nodup_range.pairwise_of_forall_ne ?_)
    intro a ha b hb hab q hqa hqb
    obtain ⟨-, c, -, -, e1⟩ := (mem_rowCells s vx vy a q).mp hqa
    obtain ⟨-, d, -, -, e2⟩ := (mem_rowCells s vx vy b q).mp hqb
    have h1 := List.mem_range.mp ha
    have h2 := List.mem_range.mp hb
    have := congrArg Prod.snd (e1.symm.trans e2)
    simp only [Config.dispH] at this hn
    omega

/-- The cells after drawing a sprite: those it covers are inverted (R191). -/
theorem drawSprite_cell (vx vy : Nat) {n : Nat} (hn : n ≤ Config.dispH) (s : State) (px py : Nat) :
    (drawSprite vx vy n s).1.disp.cell px py = (s.disp.cell px py ^^ decide ((px, py) ∈ spriteCells s vx vy n)) := by
  have h := congrArg Prod.fst (foldl_drawRow_disp vx vy (List.range n) (s, false))
  simp only at h
  rw [drawSprite, h]
  exact cell_foldl_toggle _ _ (nodup_spriteCells s vx vy hn) (fun _ hp => inGrid_of_mem_spriteCells hp) (px, py)

/-- The collision flag of a sprite: some covered cell was on (R191). -/
theorem drawSprite_collision (vx vy : Nat) {n : Nat} (hn : n ≤ Config.dispH) (s : State) :
    (drawSprite vx vy n s).2 = (spriteCells s vx vy n).any (fun p => s.disp.cell p.1 p.2) := by
  have h := congrArg Prod.snd (foldl_drawRow_disp vx vy (List.range n) (s, false))
  simp only at h
  rw [drawSprite, h]
  exact (collision_foldl_toggle _ _ (nodup_spriteCells s vx vy hn) (fun _ hp => inGrid_of_mem_spriteCells hp)).trans
    (Bool.false_or _)

/-- The reports of a sprite: one for each row whose byte does not exist, in order (R191, R234). -/
theorem drawSprite_log (vx vy n : Nat) (s : State) :
    (drawSprite vx vy n s).1.log = s.log ++ refusals .read addrExists ((List.range n).map s.blockAddr) :=
  foldl_drawRow_log vx vy (List.range n) (s, false)

end Sys2Proof.Machine
end

