-- ==== Sys2Proof/Laws/PerInstr.lean ====
section
/-! SUPPORT. Statements about every instruction as syntax, one lemma per constructor.
`RowMatch`: the word the encoder gives an instruction selects that instruction's own row of spec/opcode_table.json
(30_encoding.md R85). -/

namespace Sys2Proof.Laws

/-- The encoded word selects the instruction's own row of the opcode table. -/
def RowMatch.Statement (i : Instr) : Prop := i.row.selects (encode i) = true

theorem RowMatch.cls : RowMatch.Statement .cls := by
  unfold RowMatch.Statement
  decide

theorem RowMatch.ret : RowMatch.Statement .ret := by
  unfold RowMatch.Statement
  decide

theorem RowMatch.jp (nnn : Addr12) : RowMatch.Statement (.jp nnn) := by
  simp [RowMatch.Statement, OpcodeRow.selects, Instr.row, encode, and_maskF000]

theorem RowMatch.call (nnn : Addr12) : RowMatch.Statement (.call nnn) := by
  simp [RowMatch.Statement, OpcodeRow.selects, Instr.row, encode, and_maskF000]

theorem RowMatch.seImm (x : Reg) (nn : Byte) : RowMatch.Statement (.seImm x nn) := by
  simp [RowMatch.Statement, OpcodeRow.selects, Instr.row, encode, and_maskF000]

theorem RowMatch.sneImm (x : Reg) (nn : Byte) : RowMatch.Statement (.sneImm x nn) := by
  simp [RowMatch.Statement, OpcodeRow.selects, Instr.row, encode, and_maskF000]

theorem RowMatch.seReg (x : Reg) (y : Reg) : RowMatch.Statement (.seReg x y) := by
  simp [RowMatch.Statement, OpcodeRow.selects, Instr.row, encode, and_maskF000]

theorem RowMatch.ldImm (x : Reg) (nn : Byte) : RowMatch.Statement (.ldImm x nn) := by
  simp [RowMatch.Statement, OpcodeRow.selects, Instr.row, encode, and_maskF000]

theorem RowMatch.addImm (x : Reg) (nn : Byte) : RowMatch.Statement (.addImm x nn) := by
  simp [RowMatch.Statement, OpcodeRow.selects, Instr.row, encode, and_maskF000]

theorem RowMatch.ldReg (x : Reg) (y : Reg) : RowMatch.Statement (.ldReg x y) := by
  simp [RowMatch.Statement, OpcodeRow.selects, Instr.row, encode, and_maskF00F]

theorem RowMatch.orReg (x : Reg) (y : Reg) : RowMatch.Statement (.orReg x y) := by
  simp [RowMatch.Statement, OpcodeRow.selects, Instr.row, encode, and_maskF00F]

theorem RowMatch.andReg (x : Reg) (y : Reg) : RowMatch.Statement (.andReg x y) := by
  simp [RowMatch.Statement, OpcodeRow.selects, Instr.row, encode, and_maskF00F]

theorem RowMatch.xorReg (x : Reg) (y : Reg) : RowMatch.Statement (.xorReg x y) := by
  simp [RowMatch.Statement, OpcodeRow.selects, Instr.row, encode, and_maskF00F]

theorem RowMatch.addReg (x : Reg) (y : Reg) : RowMatch.Statement (.addReg x y) := by
  simp [RowMatch.Statement, OpcodeRow.selects, Instr.row, encode, and_maskF00F]

theorem RowMatch.sub (x : Reg) (y : Reg) : RowMatch.Statement (.sub x y) := by
  simp [RowMatch.Statement, OpcodeRow.selects, Instr.row, encode, and_maskF00F]

theorem RowMatch.shr (x : Reg) : RowMatch.Statement (.shr x) := by
  simp [RowMatch.Statement, OpcodeRow.selects, Instr.row, encode, and_maskF00F]

theorem RowMatch.subn (x : Reg) (y : Reg) : RowMatch.Statement (.subn x y) := by
  simp [RowMatch.Statement, OpcodeRow.selects, Instr.row, encode, and_maskF00F]

theorem RowMatch.shl (x : Reg) : RowMatch.Statement (.shl x) := by
  simp [RowMatch.Statement, OpcodeRow.selects, Instr.row, encode, and_maskF00F]

theorem RowMatch.sneReg (x : Reg) (y : Reg) : RowMatch.Statement (.sneReg x y) := by
  simp [RowMatch.Statement, OpcodeRow.selects, Instr.row, encode, and_maskF000]

theorem RowMatch.ldI (nnn : Addr12) : RowMatch.Statement (.ldI nnn) := by
  simp [RowMatch.Statement, OpcodeRow.selects, Instr.row, encode, and_maskF000]

theorem RowMatch.jpV0 (nnn : Addr12) : RowMatch.Statement (.jpV0 nnn) := by
  simp [RowMatch.Statement, OpcodeRow.selects, Instr.row, encode, and_maskF000]

theorem RowMatch.rnd (x : Reg) (nn : Byte) : RowMatch.Statement (.rnd x nn) := by
  simp [RowMatch.Statement, OpcodeRow.selects, Instr.row, encode, and_maskF000]

theorem RowMatch.drw (x : Reg) (y : Reg) (n : Nibble) : RowMatch.Statement (.drw x y n) := by
  simp [RowMatch.Statement, OpcodeRow.selects, Instr.row, encode, and_maskF000]

theorem RowMatch.skp (x : Reg) : RowMatch.Statement (.skp x) := by
  simp [RowMatch.Statement, OpcodeRow.selects, Instr.row, encode, and_maskF0FF]

theorem RowMatch.sknp (x : Reg) : RowMatch.Statement (.sknp x) := by
  simp [RowMatch.Statement, OpcodeRow.selects, Instr.row, encode, and_maskF0FF]

theorem RowMatch.ldVxDt (x : Reg) : RowMatch.Statement (.ldVxDt x) := by
  simp [RowMatch.Statement, OpcodeRow.selects, Instr.row, encode, and_maskF0FF]

theorem RowMatch.ldVxK (x : Reg) : RowMatch.Statement (.ldVxK x) := by
  simp [RowMatch.Statement, OpcodeRow.selects, Instr.row, encode, and_maskF0FF]

theorem RowMatch.ldDtVx (x : Reg) : RowMatch.Statement (.ldDtVx x) := by
  simp [RowMatch.Statement, OpcodeRow.selects, Instr.row, encode, and_maskF0FF]

theorem RowMatch.ldStVx (x : Reg) : RowMatch.Statement (.ldStVx x) := by
  simp [RowMatch.Statement, OpcodeRow.selects, Instr.row, encode, and_maskF0FF]

theorem RowMatch.addI (x : Reg) : RowMatch.Statement (.addI x) := by
  simp [RowMatch.Statement, OpcodeRow.selects, Instr.row, encode, and_maskF0FF]

theorem RowMatch.ldF (x : Reg) : RowMatch.Statement (.ldF x) := by
  simp [RowMatch.Statement, OpcodeRow.selects, Instr.row, encode, and_maskF0FF]

theorem RowMatch.ldB (x : Reg) : RowMatch.Statement (.ldB x) := by
  simp [RowMatch.Statement, OpcodeRow.selects, Instr.row, encode, and_maskF0FF]

theorem RowMatch.ldMemVx (x : Reg) : RowMatch.Statement (.ldMemVx x) := by
  simp [RowMatch.Statement, OpcodeRow.selects, Instr.row, encode, and_maskF0FF]

theorem RowMatch.ldVxMem (x : Reg) : RowMatch.Statement (.ldVxMem x) := by
  simp [RowMatch.Statement, OpcodeRow.selects, Instr.row, encode, and_maskF0FF]

end Sys2Proof.Laws
end

