-- ==== Sys2Proof/Laws/Step.lean ====
section
/-! SUPPORT. What one transition can do, said once: a step is an event, a step event is a refused fetch, an unknown word
or the execution of one instruction. -/

namespace Sys2Proof.Machine

/-- Everything a step event can do after the latch of its argument (R204). -/
theorem fetchDecodeExecute_cases (s : State) :
    (s.canFetch = false ∧ fetchDecodeExecute s = .next (s.raise (.fetchOutOfRange s.pc))) ∨
      (s.canFetch = true ∧ ∃ i, decode s.fetchWord = .known i ∧ fetchDecodeExecute s = exec i s) ∨
      (s.canFetch = true ∧ ∃ w, decode s.fetchWord = .unknown w ∧
        fetchDecodeExecute s = .next (s.raise (.unknownOpcode w)).advance) := by
  rcases State.fetch_cases s with ⟨h, e⟩ | ⟨h, e⟩
  · right
    cases hd : decode s.fetchWord with
    | known i => exact .inl ⟨h, i, rfl, by simp only [fetchDecodeExecute, e, execWord, hd]⟩
    | unknown w => exact .inr ⟨h, w, rfl, by simp only [fetchDecodeExecute, e, execWord, hd]; rfl⟩
  · exact .inl ⟨h, by simp only [fetchDecodeExecute, e, execNoFetch]⟩

/-- Everything a transition can be: a step event with a free random byte, or the next event of the schedule (R200). -/
theorem step_cases (s : State) :
    (s.schedule = [] ∧ step s = fetchDecodeExecute (s.countDraw.setRand (Config.freeRand s.draws))) ∨
      ∃ e rest, s.schedule = e :: rest ∧ step s = applyEvent e (s.setSchedule rest) := by
  cases h : s.schedule with
  | nil => exact .inl ⟨rfl, by simp only [step, h]; rfl⟩
  | cons e rest => exact .inr ⟨e, rest, rfl, by simp only [step, h]⟩

/-- The host's run of the machine takes one transition at a time. -/
theorem core_run_succ (n : Nat) {s t : State} (h : step s = .next t) :
    Sys2Proof.core.run (n + 1) s = Sys2Proof.core.run n t := by
  have h' : Sys2Proof.core.step s = .next t := h
  simp only [Host.Core.run, h']

/-- The fetch reads only PC and memory, so no latch of the model's own fields changes what it reads. -/
@[simp] theorem State.setRand_canFetch (s : State) (r : Byte) : (s.setRand r).canFetch = s.canFetch := rfl
@[simp] theorem State.setRand_fetchWord (s : State) (r : Byte) : (s.setRand r).fetchWord = s.fetchWord := rfl
@[simp] theorem State.countDraw_canFetch (s : State) : s.countDraw.canFetch = s.canFetch := rfl
@[simp] theorem State.countDraw_fetchWord (s : State) : s.countDraw.fetchWord = s.fetchWord := rfl
@[simp] theorem State.setSchedule_canFetch (s : State) (es : List Event) :
    (s.setSchedule es).canFetch = s.canFetch := rfl
@[simp] theorem State.setSchedule_fetchWord (s : State) (es : List Event) :
    (s.setSchedule es).fetchWord = s.fetchWord := rfl

/-- The word stored by `withFetchWord` is the word the next step fetches. -/
theorem State.withFetchWord_fetch (s : State) (nbits w : Nat) :
    (s.withFetchWord nbits w).fetch = some (BitVec.ofNat 16 (w % 2 ^ nbits)) := by
  have hpc : (fetchableOr s.pc).toNat + 1 < Config.memSize := by
    unfold fetchableOr
    split
    · next h => exact h
    · decide
  have hc : (s.withFetchWord nbits w).canFetch = true := (State.canFetch_iff _).mpr hpc
  have hw : (s.withFetchWord nbits w).fetchWord = BitVec.ofNat 16 (w % 2 ^ nbits) := by
    simp only [State.fetchWord, State.withFetchWord, Memory.setWord]
    rw [Memory.get_set_other _ _ (by omega), Memory.get_set_same, Memory.get_set_same, joinBytes_bytes]
  rw [State.fetch, if_pos hc, hw]

end Sys2Proof.Machine
end

