-- ==== Sys2Proof/Tests/Slice0.lean ====
section
/-! SUPPORT. The model's own tests. Words are written out from the bit patterns of 30_encoding.md R85; expected results are
the vectors of 95_test_vectors.md (its part and row in each docstring), never the model's answers. The last part shows,
for every statement that has hypotheses, a state and operands that meet them. -/

namespace Sys2Proof.Tests

open Sys2Proof.Machine Sys2Proof.Safety

/-! ### Helpers -/

/-- What an observer sees after one step event with the given random byte, the word standing at PC. -/
def seen {α : Type} (rand : Byte) (w : Nat) (s : State) (f : State → α) : Option α :=
  match step ((s.withFetchWord 16 w).setSchedule [.step rand]) with
  | .next t => some (f t)
  | .fault _ => none
  | .refused _ => none

/-- What an observer sees after the scheduled events. -/
def seenAfter {α : Type} (es : List Event) (s : State) (f : State → α) : Option α :=
  match Sys2Proof.core.run es.length (s.setSchedule es) with
  | .next t => some (f t)
  | .fault _ => none
  | .refused _ => none

/-- The reset state with some registers set. -/
def regs (l : List (Reg × Byte)) : State := l.foldl (fun s p => s.setV p.1 p.2) State.reset

/-- A state with bytes placed in memory. -/
def poke (a : Nat) (bytes : List Byte) (s : State) : State := s.setMem (s.mem.rawWriteBytes a bytes)

/-- A state with a cell turned on. -/
def light (x y : Nat) (s : State) : State := s.setDisp (s.disp.setCell x y true)

/-- The cells of a list that are on. -/
def lit (cells : List (Nat × Nat)) (s : State) : List (Nat × Nat) := cells.filter (fun c => s.pixel c.1 c.2)

/-- A stack of 16 entries. -/
def deep : State := { State.reset with stack := List.replicate 16 0x0202 }

/-! ### Well-formedness: each check refuses an ill-formed term -/

/-- `Bnnn` is not an instruction where the parameter says so (R87). -/
theorem test_illFormed_jpV0_unimplemented : (Instr.jpV0 0x300).wellFormedUnder false = false := by decide

theorem test_wellFormed_jpV0 : (Instr.jpV0 0x300).wellFormed = true := by decide

/-- 2.9: 3585 bytes do not fit, 3584 do. -/
theorem test_illFormed_image_3585 : imageFits (List.replicate 3585 0xAA) = false := by
  rw [imageFits, List.length_replicate]
  decide

theorem test_wellFormed_image_3584 : imageFits (List.replicate 3584 0xAA) = true := by
  rw [imageFits, List.length_replicate]
  decide

/-- 2.7: key code 16 is not one. -/
theorem test_illFormed_key_16 : keyCodeValid 16 = false := by decide

theorem test_wellFormed_key_15 : keyCodeValid 15 = true := by decide

/-- The font table is as long as the parameter says. -/
theorem test_font_length : fontTable.length = Config.fontBytes := by decide

/-! ### Decoding: every constructor from a word written out bit by bit (R85) -/

theorem test_decode_cls : decode 0b0000000011100000#16 = .known .cls := by decide
theorem test_decode_ret : decode 0b0000000011101110#16 = .known .ret := by decide
theorem test_decode_jp : decode 0b0001001000110100#16 = .known (.jp 0x234) := by decide
theorem test_decode_call : decode 0b0010011000000000#16 = .known (.call 0x600) := by decide
theorem test_decode_seImm : decode 0b0011001100101010#16 = .known (.seImm 0x3 0x2A) := by decide
theorem test_decode_sneImm : decode 0b0100001100101010#16 = .known (.sneImm 0x3 0x2A) := by decide
/-- The low nibble is ignored (R90). -/
theorem test_decode_seReg : decode 0b0101000100101111#16 = .known (.seReg 0x1 0x2) := by decide
theorem test_decode_ldImm : decode 0b0110101001111111#16 = .known (.ldImm 0xA 0x7F) := by decide
theorem test_decode_addImm : decode 0b0111001000100000#16 = .known (.addImm 0x2 0x20) := by decide
theorem test_decode_ldReg : decode 0b1000000101000000#16 = .known (.ldReg 0x1 0x4) := by decide
theorem test_decode_orReg : decode 0b1000000100100001#16 = .known (.orReg 0x1 0x2) := by decide
theorem test_decode_andReg : decode 0b1000000100100010#16 = .known (.andReg 0x1 0x2) := by decide
theorem test_decode_xorReg : decode 0b1000000100100011#16 = .known (.xorReg 0x1 0x2) := by decide
theorem test_decode_addReg : decode 0b1000000000010100#16 = .known (.addReg 0x0 0x1) := by decide
theorem test_decode_sub : decode 0b1000000100100101#16 = .known (.sub 0x1 0x2) := by decide
/-- The `y` nibble is ignored (R90). -/
theorem test_decode_shr : decode 0b1000010110100110#16 = .known (.shr 0x5) := by decide
theorem test_decode_subn : decode 0b1000000100100111#16 = .known (.subn 0x1 0x2) := by decide
/-- The `y` nibble is ignored (R90). -/
theorem test_decode_shl : decode 0b1000010110101110#16 = .known (.shl 0x5) := by decide
/-- The low nibble is ignored (R90). -/
theorem test_decode_sneReg : decode 0b1001001100110101#16 = .known (.sneReg 0x3 0x3) := by decide
theorem test_decode_ldI : decode 0b1010001011110000#16 = .known (.ldI 0x2F0) := by decide
theorem test_decode_jpV0 : decode 0b1011001100000000#16 = .known (.jpV0 0x300) := by decide
theorem test_decode_rnd : decode 0b1100001100001111#16 = .known (.rnd 0x3 0x0F) := by decide
theorem test_decode_drw : decode 0b1101000000010101#16 = .known (.drw 0x0 0x1 0x5) := by decide
theorem test_decode_skp : decode 0b1110001010011110#16 = .known (.skp 0x2) := by decide
theorem test_decode_sknp : decode 0b1110001010100001#16 = .known (.sknp 0x2) := by decide
theorem test_decode_ldVxDt : decode 0b1111001100000111#16 = .known (.ldVxDt 0x3) := by decide
theorem test_decode_ldVxK : decode 0b1111011000001010#16 = .known (.ldVxK 0x6) := by decide
theorem test_decode_ldDtVx : decode 0b1111000000010101#16 = .known (.ldDtVx 0x0) := by decide
theorem test_decode_ldStVx : decode 0b1111001000011000#16 = .known (.ldStVx 0x2) := by decide
theorem test_decode_addI : decode 0b1111000100011110#16 = .known (.addI 0x1) := by decide
theorem test_decode_ldF : decode 0b1111010000101001#16 = .known (.ldF 0x4) := by decide
theorem test_decode_ldB : decode 0b1111011100110011#16 = .known (.ldB 0x7) := by decide
theorem test_decode_ldMemVx : decode 0b1111001001010101#16 = .known (.ldMemVx 0x2) := by decide
theorem test_decode_ldVxMem : decode 0b1111001001100101#16 = .known (.ldVxMem 0x2) := by decide

/-- 2.1: unknown words, each carried by the sentinel. -/
theorem test_decode_unknown :
    decode 0x0000 = .unknown 0x0000 ∧ decode 0x0123 = .unknown 0x0123 ∧ decode 0x00E1 = .unknown 0x00E1 ∧
    decode 0x01E0 = .unknown 0x01E0 ∧ decode 0x8128 = .unknown 0x8128 ∧ decode 0x812F = .unknown 0x812F ∧
    decode 0xE19F = .unknown 0xE19F ∧ decode 0xE000 = .unknown 0xE000 ∧ decode 0xF1FF = .unknown 0xF1FF ∧
    decode 0xF130 = .unknown 0xF130 ∧ decode 0xF185 = .unknown 0xF185 := by decide

/-- The opcode table numbers a word's bits from the least significant on; the word is stored high byte first (R57). -/
theorem test_decodeTableWord : decodeTableWord 16 0xD015 = some (.drw 0x0 0x1 0x5) := by decide

/-- One byte is no instruction (R80). -/
theorem test_decodeBytes_truncated : decodeBytes [0x12] = .truncated := by decide

/-- The bytes after an instruction are left (R80). -/
theorem test_decodeBytes_rest : decodeBytes [0x6A, 0x7F, 0x12] = .decoded (.known (.ldImm 0xA 0x7F)) [0x12] := by decide

/-! ### Fetch (2.1) -/

theorem test_fetch_refused :
    seenAfter [.step 0] { State.reset with pc := 0x0FFF } (fun t => (t.pc, t.log)) =
      some (0x0FFF, [.fetchOutOfRange 0x0FFF]) := by decide

theorem test_fetch_odd_pc :
    seenAfter [.step 0] (poke 0x201 [0x6A, 0xFF] { State.reset with pc := 0x0201 })
      (fun t => (t.getV 0xA, t.pc)) = some (0xFF, 0x0203) := by decide

/-- 2.1: reset, no load: `0000` is unknown. -/
theorem test_unknown_word :
    seenAfter [.step 0] State.reset (fun t => (t.log, t.pc)) = some ([.unknownOpcode 0x0000], 0x0202) := by decide

/-- 2.1: a skip at the last fetchable address. -/
theorem test_fetch_last_address :
    seenAfter [.step 0] (poke 0xFFE [0x30, 0x00] { State.reset with pc := 0x0FFE }) (fun t => (t.pc, t.log)) =
      some (0x1002, []) := by decide

/-- A word is placed where the next step fetches, also when PC points at nothing. -/
theorem test_withFetchWord_past_end :
    seen 0 0x6A7F { State.reset with pc := 0x1000 } (fun t => (t.getV 0xA, t.pc)) = some (0x7F, 0x0202) := by decide

/-! ### Control flow (2.2) -/

theorem test_jp_odd_target : seen 0 0x1FFF State.reset (fun t => (t.pc, t.log)) = some (0x0FFF, []) := by decide

theorem test_call : seen 0 0x2600 State.reset (fun t => (t.pc, t.stack)) = some (0x0600, [0x0202]) := by decide

theorem test_call_overflow :
    seen 0 0x2300 deep (fun t => (t.pc, t.stack.length, t.log)) = some (0x0200, 16, [.stackOverflow 0x0200]) := by
  decide

theorem test_ret_last_pushed :
    seen 0 0x00EE { State.reset with pc := 0x0600, stack := [0x0202, 0x0345] } (fun t => (t.pc, t.stack)) =
      some (0x0345, [0x0202]) := by decide

theorem test_ret_underflow :
    seen 0 0x00EE { State.reset with pc := 0x0600 } (fun t => (t.pc, t.log)) =
      some (0x0600, [.stackUnderflow 0x0600]) := by decide

theorem test_seImm_equal : seen 0 0x332A (regs [(3, 0x2A)]) State.pc = some 0x0204 := by decide
theorem test_seImm_differs : seen 0 0x332A (regs [(3, 0x2B)]) State.pc = some 0x0202 := by decide
theorem test_sneImm_equal : seen 0 0x432A (regs [(3, 0x2A)]) State.pc = some 0x0202 := by decide
theorem test_sneImm_differs : seen 0 0x432A State.reset State.pc = some 0x0204 := by decide
theorem test_seReg_equal : seen 0 0x512F (regs [(1, 0x07), (2, 0x07)]) State.pc = some 0x0204 := by decide
theorem test_seReg_differs : seen 0 0x5120 (regs [(1, 0x07), (2, 0x08)]) State.pc = some 0x0202 := by decide
theorem test_sneReg_differs : seen 0 0x9120 (regs [(1, 0x07), (2, 0x08)]) State.pc = some 0x0204 := by decide
theorem test_sneReg_same : seen 0 0x9335 (regs [(3, 0x09)]) State.pc = some 0x0202 := by decide
theorem test_jpV0 : seen 0 0xB300 (regs [(0, 0x04)]) State.pc = some 0x0304 := by decide
theorem test_jpV0_not_truncated : seen 0 0xBFFF (regs [(0, 0xFF)]) State.pc = some 0x10FE := by decide

/-! ### Load and arithmetic (2.3) -/

theorem test_ldImm : seen 0 0x6A7F State.reset (fun t => (t.getV 0xA, t.pc)) = some (0x7F, 0x0202) := by decide

theorem test_addImm_no_flag :
    seen 0 0x7220 (regs [(2, 0xF0)]) (fun t => (t.getV 2, t.getV vf)) = some (0x10, 0x00) := by decide

theorem test_addImm_vf : seen 0 0x7F01 (regs [(vf, 0xFF)]) (fun t => t.getV vf) = some 0x00 := by decide

theorem test_ldReg : seen 0 0x8140 (regs [(4, 0x33)]) (fun t => (t.getV 1, t.getV 4)) = some (0x33, 0x33) := by decide

theorem test_orReg :
    seen 0 0x8121 (regs [(1, 0x0F), (2, 0xF0), (vf, 0x01)]) (fun t => (t.getV 1, t.getV vf)) = some (0xFF, 0x01) := by
  decide

theorem test_andReg :
    seen 0 0x8122 (regs [(1, 0x3C), (2, 0x0F), (vf, 0x01)]) (fun t => (t.getV 1, t.getV vf)) = some (0x0C, 0x01) := by
  decide

theorem test_xorReg :
    seen 0 0x8123 (regs [(1, 0xFF), (2, 0x0F), (vf, 0x01)]) (fun t => (t.getV 1, t.getV vf)) = some (0xF0, 0x01) := by
  decide

theorem test_addReg_carry :
    seen 0 0x8014 (regs [(0, 0x02), (1, 0xFF)]) (fun t => (t.getV 0, t.getV vf)) = some (0x01, 0x01) := by decide

theorem test_addReg_vf_operand :
    seen 0 0x80F4 (regs [(0, 0xFF), (vf, 0x01)]) (fun t => (t.getV 0, t.getV vf)) = some (0x00, 0x01) := by decide

theorem test_sub_borrow :
    seen 0 0x8125 (regs [(1, 0x10), (2, 0x20)]) (fun t => (t.getV 1, t.getV vf)) = some (0xF0, 0x00) := by decide

theorem test_sub_flag_wins : seen 0 0x8F15 (regs [(vf, 0x09), (1, 0x04)]) (fun t => t.getV vf) = some 0x01 := by decide

theorem test_shr_in_place :
    seen 0 0x85A6 (regs [(5, 0x05), (0xA, 0xF0)]) (fun t => (t.getV 5, t.getV vf)) = some (0x02, 0x01) := by decide

theorem test_shr_vf : seen 0 0x8F06 (regs [(vf, 0x02)]) (fun t => t.getV vf) = some 0x00 := by decide

theorem test_subn :
    seen 0 0x8127 (regs [(1, 0x10), (2, 0x20)]) (fun t => (t.getV 1, t.getV vf)) = some (0x10, 0x01) := by decide

theorem test_subn_equal :
    seen 0 0x8127 (regs [(1, 0x07), (2, 0x07)]) (fun t => (t.getV 1, t.getV vf)) = some (0x00, 0x01) := by decide

theorem test_shl :
    seen 0 0x850E (regs [(5, 0x7F), (vf, 0x01)]) (fun t => (t.getV 5, t.getV vf)) = some (0xFE, 0x00) := by decide

theorem test_shl_vf : seen 0 0x8F0E (regs [(vf, 0x80)]) (fun t => t.getV vf) = some 0x01 := by decide

/-! ### Index register and timers (2.4) -/

theorem test_ldI : seen 0 0xAFFF State.reset (fun t => (t.i, t.pc)) = some (0x0FFF, 0x0202) := by decide

theorem test_addI_wraps :
    seen 0 0xF11E { regs [(1, 0x01)] with i := 0xFFFF } (fun t => (t.i, t.getV vf)) = some (0x0000, 0x00) := by decide

theorem test_addI_above_memory :
    seen 0 0xF11E { regs [(1, 0x05)] with i := 0x0FFE } State.i = some 0x1003 := by decide

theorem test_ldVxDt :
    seen 0 0xF307 { State.reset with dt := 0x3C } (fun t => (t.getV 3, t.dt)) = some (0x3C, 0x3C) := by decide

theorem test_ldDtVx : seen 0 0xF015 (regs [(0, 0x05)]) (fun t => (t.dt, t.st)) = some (0x05, 0x00) := by decide

theorem test_ldStVx : seen 0 0xF218 (regs [(2, 0x0A)]) (fun t => (t.st, t.soundOn)) = some (0x0A, true) := by decide

theorem test_ldStVx_zero :
    seen 0 0xF218 { State.reset with st := 0x07 } (fun t => (t.st, t.soundOn)) = some (0x00, false) := by decide

theorem test_ldF_low_nibble : seen 0 0xF429 (regs [(4, 0x1A)]) State.i = some 0x0032 := by decide

/-! ### Memory block transfers (2.5) -/

theorem test_ldB :
    seen 0 0xF733 { regs [(7, 0x9C)] with i := 0x0300 }
      (fun t => (t.mem.get 0x300, t.mem.get 0x301, t.mem.get 0x302, t.i)) = some (0x01, 0x05, 0x06, 0x0300) := by decide

theorem test_ldB_not_truncated :
    seen 0 0xF733 { regs [(7, 0x7B)] with i := 0xFFFF } State.log =
      some [.memOutOfRange .write 0xFFFF, .memOutOfRange .write 0x10000, .memOutOfRange .write 0x10001] := by decide

theorem test_ldMemVx :
    seen 0 0xF255 { regs [(0, 0x11), (1, 0x22), (2, 0x33), (3, 0x44)] with i := 0x0400 }
      (fun t => (t.mem.get 0x400, t.mem.get 0x401, t.mem.get 0x402, t.mem.get 0x403)) =
      some (0x11, 0x22, 0x33, 0x00) := by decide

theorem test_ldMemVx_boundary :
    seen 0 0xF155 { regs [(0, 0xAB), (1, 0xCD)] with i := 0x01FF }
      (fun t => (t.mem.get 0x1FF, t.mem.get 0x200, t.log)) =
      some (0x00, 0xCD, [.memOutOfRange .write 0x1FF]) := by decide

theorem test_ldVxMem_end_of_memory :
    seen 0 0xF165 (poke 0xFFF [0x77] { regs [(0, 0x09), (1, 0x42)] with i := 0x0FFF })
      (fun t => (t.getV 0, t.getV 1, t.log)) = some (0x77, 0x42, [.memOutOfRange .read 0x1000]) := by decide

theorem test_ldVxMem_font :
    seen 0 0xF465 State.reset (fun t => (t.getV 0, t.getV 1, t.getV 3, t.getV 4, t.getV 5)) =
      some (0xF0, 0x90, 0x90, 0xF0, 0x00) := by decide

/-- S8: a store to the reserved region is refused and leaves the font alone. -/
theorem test_write_below_boundary :
    seen 0 0xF055 { regs [(0, 0xAB)] with i := 0x004F } (fun t => (t.mem.get 0x4F, t.log, t.pc)) =
      some (0x80, [.memOutOfRange .write 0x04F], 0x0202) := by decide

/-! ### Random and input (2.6, 2.7) -/

theorem test_rnd : seen 0xB7 0xC30F State.reset (fun t => (t.getV 3, t.pc)) = some (0x07, 0x0202) := by decide

theorem test_rnd_vf : seen 0xFF 0xCFF0 State.reset (fun t => t.getV vf) = some 0xF0 := by decide

theorem test_ldVxK :
    seen 0 0xF60A { State.reset with keyPending := some 0xB } (fun t => (t.getV 6, t.keyPending, t.pc)) =
      some (0x0B, none, 0x0202) := by decide

theorem test_ldVxK_waits : seen 0 0xF60A State.reset (fun t => (t.pc, t.log)) = some (0x0200, []) := by decide

theorem test_skp_held : seen 0 0xE29E ((regs [(2, 0x05)]).setHeld 5 true) State.pc = some 0x0204 := by decide

theorem test_skp_no_key : seen 0 0xE29E ((regs [(2, 0x15)]).setHeld 5 true) State.pc = some 0x0202 := by decide

theorem test_sknp_held : seen 0 0xE2A1 ((regs [(2, 0x05)]).setHeld 5 true) State.pc = some 0x0202 := by decide

theorem test_sknp_no_key : seen 0 0xE2A1 ((regs [(2, 0x15)]).setHeld 5 true) State.pc = some 0x0204 := by decide

theorem test_key_down_then_up :
    seenAfter [.keyDown 7, .keyUp 7] State.reset (fun t => (t.keyPending, t.keyHeld[7])) =
      some (some 0x7, false) := by decide

theorem test_key_down_invalid :
    seenAfter [.keyDown 16] State.reset (fun t => (t.keyPending, t.keyHeld.toList)) =
      some (none, List.replicate 16 false) := by decide

/-! ### Display (2.8) -/

theorem test_cls :
    seen 0 0x00E0 (light 0 0 (light 63 31 State.reset)) (fun t => (lit [(0, 0), (63, 31)] t, t.redraw)) =
      some ([], true) := by decide

/-- S4: the first row of glyph 0 and the collision flag. -/
theorem test_drw_glyph :
    seen 0 0xD015 State.reset
      (fun t => (lit [(0, 0), (3, 0), (4, 0), (0, 1), (1, 1), (3, 1), (3, 4), (0, 5)] t, t.getV vf, t.redraw)) =
      some ([(0, 0), (3, 0), (0, 1), (3, 1), (3, 4)], 0x00, true) := by decide

/-- 2.8: both coordinates wrap, and one cell that was on goes off. -/
theorem test_drw_wraps :
    seen 0 0xD011 (poke 0x300 [0xC0] (light 0 31 { regs [(0, 0xFF), (1, 0xFF)] with i := 0x0300 }))
      (fun t => (lit [(63, 31), (0, 31), (1, 31)] t, t.getV vf)) = some ([(63, 31)], 0x01) := by decide

/-! ### Timers, load, reset, redraw_ack (2.4, 2.9) -/

theorem test_tick_stops_at_zero :
    seenAfter [.tick] { State.reset with dt := 0x00, st := 0x02 } (fun t => (t.dt, t.st, t.soundOn)) =
      some (0x00, 0x01, true) := by decide

theorem test_load_keeps_the_tail :
    seenAfter [.load [0xAA, 0xBB, 0xCC], .load [0x11]] State.reset
      (fun t => (t.mem.get 0x200, t.mem.get 0x201, t.mem.get 0x202)) = some (0x11, 0xBB, 0xCC) := by decide

theorem test_reset_clears_the_program :
    seenAfter [.load [0xAA], .reset] (regs [(3, 0x07)]) (fun t => (t.mem.get 0x200, t.getV 3, t.pc)) =
      some (0x00, 0x00, 0x0200) := by decide

theorem test_redraw_ack : seenAfter [.redrawAck] { State.reset with redraw := true } State.redraw = some false := by
  decide

/-! ### Witnesses: for every statement with hypotheses, a state and operands that meet them together, one for each clause
at a boundary of its range -/

/-- The reset state with one step event scheduled and a word placed at the entry point. -/
def loaded (w : Nat) (s : State) : State := (s.withFetchWord 16 w).setSchedule [.step 0xB7]

/-- A state with I at an address. -/
def withI (a : Word16) (s : State) : State := { s with i := a }

/-- The greatest PC a jump reaches, and the greatest return address. -/
def farPc : State := { State.reset with pc := 0x10FE, stack := [0x1000], schedule := [.step 0] }

/-- A state in which a sprite row at the last byte of memory is drawn from the last column and row. -/
def sprite : State := poke 0xFFF [0xC0] (light 63 31 { regs [(0, 0xFF), (1, 0xFF)] with i := 0x0FFF })

theorem test_witness_DecodingAnEncodedInstructionGivesItBack :
    (Instr.jpV0 0xFFF).wellFormedUnder true = true ∧ (Instr.drw 0xF 0xF 0xF).wellFormedUnder false = true ∧
      (Instr.shl 0xF).wellFormed = true := by decide

theorem test_witness_EncodingADecodedWordClearsOnlyIgnoredBits : decode 0x85AE = .known (.shl 5) := by decide

theorem test_witness_UnknownWordsAreTheFourSets :
    decode 0x0FFF = .unknown 0x0FFF ∧ decode 0x8FFF = .unknown 0x8FFF ∧ decode 0xE0FF = .unknown 0xE0FF ∧
      decode 0xF000 = .unknown 0xF000 := by decide

theorem test_witness_DecoderAgreesWithTheOpcodeTable :
    decode 0x9FFF = .known (.sneReg 0xF 0xF) ∧ (Instr.sneReg 0xF 0xF).row ∈ opcodeTable ∧
      decode 0x8128 = .unknown 0x8128 := by decide

/-- The last fetchable address, with the schedule empty and with a step event scheduled. -/
theorem test_witness_StepExecutesTheDecodedInstruction :
    ∀ es ∈ [[], [Event.step 0xB7]],
      let s := (poke 0xFFE [0xC3, 0x0F] { State.reset with pc := 0x0FFE }).setSchedule es
      s.pc.toNat + 1 < Config.memSize ∧
        decode (s.mem.get s.pc.toNat ++ s.mem.get (s.pc.toNat + 1)) = .known (.rnd 3 0x0F) ∧ s.schedule = es := by
  decide

theorem test_witness_StepAppliesTheNextEvent :
    State.reset.schedule = [] ∧ (State.reset.setSchedule [.tick, .reset]).schedule = .tick :: [.reset] := by decide

theorem test_witness_FetchPastTheEndOnlyReports :
    Config.memSize ≤ ({ State.reset with pc := 0x0FFF } : State).pc.toNat + 1 := by decide

theorem test_witness_UnknownWordIsReportedAndSkipped :
    let s := poke 0xFFE [0x80, 0x08] { State.reset with pc := 0x0FFE }
    s.pc.toNat + 1 < Config.memSize ∧ s.mem.get s.pc.toNat ++ s.mem.get (s.pc.toNat + 1) = (0x8008 : Word16) ∧
      decode 0x8008 = .unknown 0x8008 := by decide

theorem test_witness_InstructionsChangeOnlyWhatTheTablesList :
    ∃ t, exec (.ldVxMem 0xF) { State.reset with i := 0x0FFF } = .next t := ⟨_, rfl⟩

theorem test_witness_InstructionsRaiseOnlyTheirOwnReports : ∃ t, exec (.call 0x300) deep = .next t := ⟨_, rfl⟩

theorem test_witness_ReportsAreNotObservable :
    ∃ t, exec (.drw 0 1 2) { sprite with log := [.unknownOpcode 0x8008] } = .next t := ⟨_, rfl⟩

theorem test_witness_OnlyRndReadsTheRandomByte :
    (∀ x nn, Instr.addReg 0 1 ≠ .rnd x nn) ∧ ∃ t, exec (.addReg 0 1) State.reset = .next t :=
  ⟨fun _ _ => by simp, _, rfl⟩

theorem test_witness_TransitionsKeepMemoryCanonical :
    MemoryCanonical (loaded 0xF733 { State.reset with i := 0x0FFD }) ∧
      ∃ t, step (loaded 0xF733 { State.reset with i := 0x0FFD }) = .next t :=
  ⟨by unfold MemoryCanonical; decide, _, rfl⟩

theorem test_witness_TransitionsKeepTheReservedRegion :
    ReservedIntact { State.reset with i := 0x01FF } ∧ ∃ t, step (State.reset.setSchedule [.load [0xAA]]) = .next t :=
  ⟨fun _ _ => rfl, _, rfl⟩

theorem test_witness_TransitionsKeepTheStackBounded :
    StackBounded (loaded 0x2300 deep) ∧ ∃ t, step (loaded 0x2300 deep) = .next t :=
  ⟨by unfold StackBounded; decide, _, rfl⟩

theorem test_witness_TransitionsKeepPcInRange : PcBounded farPc ∧ ∃ t, step farPc = .next t :=
  ⟨⟨by decide, by simp [farPc]⟩, (farPc.setSchedule []).raise (.fetchOutOfRange 0x10FE), rfl⟩

theorem test_witness_ReportLogOnlyGrows : ∃ t, step (State.reset.setSchedule [.load []]) = .next t := ⟨_, rfl⟩

/-- One entry below the capacity, and at it. -/
theorem test_witness_CallPushesTheReturnAddress :
    ({ State.reset with stack := List.replicate 15 0x0202 } : State).stack.length < Config.stackDepth ∧
      Config.stackDepth ≤ deep.stack.length := by decide

theorem test_witness_RetPopsTheReturnAddress :
    ({ State.reset with stack := [0x0202, 0x0345] } : State).stack = [0x0202] ++ [0x0345] ∧
      State.reset.stack = [] := by decide

theorem test_witness_RetAfterCallContinuesAfterTheCall :
    State.reset.stack.length < Config.stackDepth ∧
      ∃ t u : State, exec (.call 0x600) State.reset = .next t ∧ u.stack = t.stack :=
  ⟨by decide, _, { State.reset with stack := [0x0202], pc := 0x0600 }, rfl, rfl⟩

theorem test_witness_AddRegistersSetsTheCarry : (0xE : Reg) ≠ vf := by decide

theorem test_witness_SubtractionsSetNotBorrow : (0x0 : Reg) ≠ vf := by decide

theorem test_witness_ShiftsPutTheLostBitInTheFlag : (0x5 : Reg) ≠ vf := by decide

theorem test_witness_LdFPointsAtTheGlyph : ReservedIntact (regs [(4, 0xFF)]) ∧ 4 < 5 :=
  ⟨fun _ _ => rfl, by decide⟩

/-- The first digit at the first writable address, the others at the last ones, and an address outside them. -/
theorem test_witness_LdBStoresDecimalDigits :
    Config.progBase ≤ 0x200 ∧ 0x200 < Config.memSize ∧ 0x200 = (withI 0x0200 (regs [(7, 0x9C)])).blockAddr 0 ∧
      0xFFE = (withI 0x0FFD (regs [(7, 0x9C)])).blockAddr 1 ∧ 0xFFF = (withI 0x0FFD (regs [(7, 0x9C)])).blockAddr 2 ∧
      0xFFF < Config.memSize ∧ 0xFFC ≠ (withI 0x0FFD (regs [(7, 0x9C)])).blockAddr 0 := by decide

/-- The first writable address, the last one, and an address no register is stored to. -/
theorem test_witness_LdMemoryStoresTheRegisters :
    (0xF : Reg).toNat ≤ (0xF : Reg).toNat ∧ Config.progBase = (withI 0x01F1 State.reset).blockAddr (0xF : Reg).toNat ∧
      Config.memSize = (withI 0x0FFF State.reset).blockAddr (0x0 : Reg).toNat + 1 ∧
      ∀ k : Reg, k.toNat ≤ (0x2 : Reg).toNat → 0x403 ≠ (withI 0x0400 State.reset).blockAddr k.toNat := by decide

theorem test_witness_LdRegistersLoadsFromMemory :
    (0x1 : Reg).toNat ≤ (0x1 : Reg).toNat ∧ (0x1 : Reg).toNat < (0x2 : Reg).toNat ∧
      ({ State.reset with i := 0x0FFF } : State).blockAddr 0 < Config.memSize ∧
      ¬ ({ State.reset with i := 0x0FFF } : State).blockAddr 1 < Config.memSize := by decide

theorem test_witness_StoredRegistersLoadBack :
    Config.progBase ≤ (withI 0x0FF0 State.reset).i.toNat ∧
      (withI 0x0FF0 State.reset).i.toNat + (0xF : Reg).toNat < Config.memSize ∧
      ∃ t u : State, exec (.ldMemVx 0xF) (withI 0x0FF0 State.reset) = .next t ∧ u.mem = t.mem ∧ u.i = 0x0FF0 :=
  ⟨by decide, by decide, _, State.memWriteBytes (withI 0x0FF0 State.reset) 0xFF0 ((regsUpTo 0xF).map State.reset.getV),
    rfl, rfl, rfl⟩

theorem test_witness_StoredWordIsFetched :
    1 ≤ (0x1 : Reg).toNat ∧ Config.progBase ≤ (withI 0x0FFE State.reset).i.toNat ∧
      (withI 0x0FFE State.reset).i.toNat + 1 < Config.memSize ∧
      ∃ t u : State, exec (.ldMemVx 0x1) (withI 0x0FFE State.reset) = .next t ∧ u.mem = t.mem ∧ u.pc = 0x0FFE :=
  ⟨by decide, by decide, by decide, _, { State.reset with pc := 0x0FFE }, rfl, by decide, rfl⟩

theorem test_witness_RndMasksTheRandomByte :
    (loaded 0xC30F State.reset).canFetch = true ∧
      decode (loaded 0xC30F State.reset).fetchWord = .known (.rnd 3 0x0F) := by decide

theorem test_witness_LdKeyConsumesThePendingKey :
    ({ State.reset with keyPending := some 0x0 } : State).keyPending = some 0x0 ∧ State.reset.keyPending = none := by
  decide

/-- Held, not held, and a value that names no key. -/
theorem test_witness_KeySkipsTestTheHeldKey :
    (∃ k : Fin Config.nKeys, ((regs [(2, 0x0F)]).getV 2).toNat = k.val ∧
      ((regs [(2, 0x0F)]).setHeld 15 true).keyHeld[k] = true) ∧
    (¬ ∃ k : Fin Config.nKeys, ((regs [(2, 0x10)]).getV 2).toNat = k.val ∧
      ((regs [(2, 0x10)]).setHeld 15 true).keyHeld[k] = true) := by decide

/-- The corner cell is covered and on, its right neighbour on the torus is covered and off; the next one is not covered;
on a cleared display no covered cell is on. -/
theorem test_witness_DrwInvertsTheCoveredCells :
    SpriteCovers sprite (sprite.getV 0).toNat (sprite.getV 1).toNat 1 63 31 ∧ sprite.pixel 63 31 = true ∧
      SpriteCovers sprite (sprite.getV 0).toNat (sprite.getV 1).toNat 1 0 31 ∧ sprite.pixel 0 31 = false ∧
      (¬ SpriteCovers sprite (sprite.getV 0).toNat (sprite.getV 1).toNat 0 1 31) ∧
      ¬ ∃ px py, SpriteCovers State.reset 0 0 0 px py ∧ State.reset.pixel px py = true :=
  ⟨⟨0, 0, by decide⟩, by decide, ⟨0, 1, by decide⟩, by decide, fun ⟨_, _, h, _⟩ => absurd h (Nat.not_lt_zero _),
    fun ⟨_, _, ⟨_, _, h, _⟩, _⟩ => absurd h (Nat.not_lt_zero _)⟩

/-- The second draw after the first, the coordinates copied to other registers; and a cleared display. -/
theorem test_witness_DrawingTwiceRestoresTheDisplay :
    (∃ t u : State, exec (.drw 0 1 1) sprite = .next t ∧ u.mem = sprite.mem ∧ u.i = sprite.i ∧ u.disp = t.disp ∧
      u.getV 2 = sprite.getV 0 ∧ u.getV 3 = sprite.getV 1) ∧ ∀ px py, State.reset.pixel px py = false :=
  ⟨⟨_, (((drawSprite 255 255 1 sprite).1).setV 2 0xFF).setV 3 0xFF, rfl, rfl, rfl, rfl, rfl, rfl⟩,
    fun px py => by simp [State.reset, Display.cell, Display.clear]⟩

theorem test_witness_KeyEventsSetTheLatchAndTheHeldKey : 15 < Config.nKeys ∧ Config.nKeys ≤ 16 := by decide

/-- The longest image that fits with its last byte and the address after it, and the shortest that does not. -/
theorem test_witness_LoadWritesTheImage :
    (List.replicate 3584 (0xAA : Byte)).length ≤ 3584 ∧ 3583 < (List.replicate 3584 (0xAA : Byte)).length ∧
      0x200 + (List.replicate 3584 (0xAA : Byte)).length ≤ 0x1000 ∧
      3584 < (List.replicate 3585 (0xAA : Byte)).length := by
  simp only [List.length_replicate]
  decide

/-- An event that finds the flag set and neither acknowledges nor resets, and an instruction that does. -/
theorem test_witness_RedrawIsClearedOnlyByAckOrReset :
    (Event.tick ≠ .redrawAck ∧ Event.tick ≠ .reset ∧
      ∃ t, applyEvent .tick { State.reset with redraw := true } = .next t) ∧
    (∃ t, exec (.ldB 7) { State.reset with redraw := true } = .next t) ∧
      ({ State.reset with redraw := true } : State).redraw = true :=
  ⟨⟨by decide, by decide, _, rfl⟩, ⟨_, rfl⟩, rfl⟩

/-- A jump to the last address, and a jump to the instruction's own address. -/
theorem test_witness_JpSetsPcToItsTarget :
    (0xFFF : Addr12) = 0xFFF ∧ State.reset.pc.toNat = (0x200 : Addr12).toNat := by decide

theorem test_witness_TickCountsBothTimersDown : ({ State.reset with st := 1 } : State).st = 1 := by decide

/-- Memory addresses on both sides of the font's end. -/
theorem test_witness_ResetGivesTheResetValues :
    (∃ u, u = State.reset) ∧ 79 < 80 ∧ 80 ≤ 80 := ⟨⟨_, rfl⟩, by decide, by decide⟩

/-- The three stalls. -/
theorem test_witness_StalledStatesStayStalled :
    Stalled { State.reset with pc := 0x0FFF } ∧ Stalled (loaded 0x00EE State.reset) ∧ Stalled (loaded 0x2300 deep) :=
  ⟨.inl (by decide), .inr (.inl (by decide)), .inr (.inr ⟨by decide, ⟨0x300, by decide⟩, by decide⟩)⟩

theorem test_witness_WaitingEndsWithAKeyDown : Waiting (loaded 0xF60A State.reset) ∧ 15 < Config.nKeys :=
  ⟨⟨by decide, ⟨6, by decide⟩, by decide⟩, by decide⟩

/-- 2.2: `1200` at 0x200 is a jump to itself. -/
theorem test_witness_FinishedStatesRepeat : Finished (loaded 0x1200 State.reset) :=
  ⟨by decide, 0x200, by decide, by decide⟩

end Sys2Proof.Tests
end

section
/-! The proof of O21, JP addr (40_control_flow.md R110), and the laws of `jumpTo`, of the ADDR decoding and of a refused
fetch that it is assembled from. -/

namespace Sys2Proof

/-- A word of family 1 decodes to the jump to its low twelve bits (R84, R110). -/
@[simp] theorem decode_jp (nnn : Addr12) : decode (0x1#4 ++ nnn) = .known (.jp nnn) := by
  simp [decode, decodeUnder]

end Sys2Proof

namespace Sys2Proof.Machine

open Sys2Proof.Safety

/-- A target equal to PC as a number is PC as a word. -/
theorem zextAddr_eq_of_toNat_eq {a : Word16} {nnn : Addr12} (h : a.toNat = nnn.toNat) : zextAddr nnn = a :=
  BitVec.eq_of_toNat_eq ((toNat_zextAddr nnn).trans h.symm)

@[simp] theorem State.jumpTo_self (s : State) : s.jumpTo s.pc = s := rfl

/-- The frame of a jump (R26, R118(c)). -/
theorem State.jumpTo_onlyChanges (s : State) (target : Word16) : OnlyChanges [] [.pc] s (s.jumpTo target) := by
  refine ⟨fun k _ => State.jumpTo_getV s target k, fun p hp => ?_⟩
  cases p with
  | pc => exact absurd (List.mem_singleton_self _) hp
  | _ => simp [SameIn]

/-- The fetch is refused exactly when the second byte lies past memory (R81). -/
theorem State.fetch_eq_none_iff (s : State) : s.fetch = none ↔ Config.memSize ≤ s.pc.toNat + 1 := by
  rw [← Nat.not_lt, ← State.canFetch_iff]
  obtain ⟨hcan, hfetch⟩ | ⟨hcan, hfetch⟩ := State.fetch_cases s <;> simp [hcan, hfetch]

theorem exec_jp (nnn : Addr12) (s : State) : exec (.jp nnn) s = .next (s.jumpTo (zextAddr nnn)) := rfl

/-- After a jump to the last byte of memory the next fetch is refused (R110(b)). -/
theorem State.fetch_jumpTo_lastAddr (s : State) : (s.jumpTo (zextAddr 0xFFF)).fetch = none := by
  rw [State.fetch_eq_none_iff, State.jumpTo_pc, toNat_zextAddr]
  decide

/-- Settles O21: JP is `jumpTo` of its zero-extended target, so its value, frame, refused fetch and self jump are those of
`jumpTo`. -/
theorem jpSetsPcToItsTarget : Obligations.JpSetsPcToItsTarget := by
  intro nnn s
  have hself (h : s.pc.toNat = nnn.toNat) : s.jumpTo (zextAddr nnn) = s := by
    rw [zextAddr_eq_of_toNat_eq h, State.jumpTo_self]
  have hlast (h : nnn = 0xFFF) : (s.jumpTo (zextAddr nnn)).fetch = none := by
    rw [h, State.fetch_jumpTo_lastAddr]
  exact ⟨decode_jp nnn, s.jumpTo (zextAddr nnn), exec_jp nnn s, toNat_zextAddr nnn,
    State.jumpTo_onlyChanges s (zextAddr nnn), hlast, hself⟩

end Sys2Proof.Machine
end

section
/-! The proofs of O28, O29 and O30, the two loads and the add without a flag (41_load_arith.md R130, R131, R132), and the
laws they share: the decoding of their words, and the write of one register followed by the normal advance. -/

namespace Sys2Proof

/-- A word of family 6 decodes to the load of its low byte (R84, R130). -/
@[simp] theorem decode_ldImm (x : Reg) (nn : Byte) : decode (0x6#4 ++ x ++ nn) = .known (.ldImm x nn) := by
  simp [decode, decodeUnder]

/-- A word of family 7 decodes to the add of its low byte (R84, R131). -/
@[simp] theorem decode_addImm (x : Reg) (nn : Byte) : decode (0x7#4 ++ x ++ nn) = .known (.addImm x nn) := by
  simp [decode, decodeUnder]

/-- A word of family 8 decodes by its low nibble (R84). -/
theorem decode_family8 (x y : Reg) (n : Nibble) :
    decode (0x8#4 ++ x ++ y ++ n) = decodeFamily8 (0x8#4 ++ x ++ y ++ n) := by
  simp [decode, decodeUnder]

/-- A word of family 8 with low nibble 0 decodes to the register copy (R84, R132). -/
@[simp] theorem decode_ldReg (x y : Reg) : decode (0x8#4 ++ x ++ y ++ 0x0#4) = .known (.ldReg x y) := by
  rw [decode_family8]
  simp [decodeFamily8]

end Sys2Proof

namespace Sys2Proof.Machine

open Sys2Proof.Safety

theorem State.getV_setV_advance (s : State) (x : Reg) (a : Byte) : (s.setV x a).advance.getV x = a := by
  rw [State.advance_getV, State.getV_setV_same]

theorem State.pc_setV_advance (s : State) (x : Reg) (a : Byte) : (s.setV x a).advance.pc = s.pc + 2 := by
  rw [State.advance_pc, State.setV_pc]

/-- The frame of an instruction that writes one register and advances: VF is in it unless it is that register. -/
theorem State.setV_advance_onlyChanges (s : State) (x : Reg) (a : Byte) :
    OnlyChanges [x] [.pc] s (s.setV x a).advance := by
  refine ⟨fun k hk => ?_, fun p hp => ?_⟩
  · rw [State.advance_getV]
    exact State.getV_setV_other s a fun hkx => hk (List.mem_singleton.mpr hkx)
  · cases p with
    | pc => exact absurd (List.mem_singleton_self _) hp
    | _ => simp [SameIn, State.pixel]

theorem exec_ldImm (x : Reg) (nn : Byte) (s : State) : exec (.ldImm x nn) s = .next (s.setV x nn).advance := rfl

theorem exec_addImm (x : Reg) (nn : Byte) (s : State) :
    exec (.addImm x nn) s = .next (s.setV x (sum8 (s.getV x) nn)).advance := rfl

theorem exec_ldReg (x y : Reg) (s : State) : exec (.ldReg x y) s = .next (s.setV x (s.getV y)).advance := rfl

/-- Settles O28: LD Vx, byte writes the immediate to one register and advances. -/
theorem ldImmediateLoadsTheByte : Obligations.LdImmediateLoadsTheByte := fun x nn s =>
  ⟨decode_ldImm x nn, (s.setV x nn).advance, exec_ldImm x nn s, State.getV_setV_advance s x nn,
    State.pc_setV_advance s x nn, State.setV_advance_onlyChanges s x nn⟩

/-- Settles O29: ADD Vx, byte writes the 8-bit sum to one register and advances; no flag is computed. -/
theorem addImmediateWrapsWithoutFlag : Obligations.AddImmediateWrapsWithoutFlag := by
  intro x nn s
  have hsum : ((s.setV x (sum8 (s.getV x) nn)).advance.getV x).toNat = ((s.getV x).toNat + nn.toNat) % 256 := by
    rw [State.getV_setV_advance, toNat_sum8]
  exact ⟨decode_addImm x nn, (s.setV x (sum8 (s.getV x) nn)).advance, exec_addImm x nn s, hsum,
    State.pc_setV_advance s x _, State.setV_advance_onlyChanges s x _⟩

/-- Settles O30: LD Vx, Vy writes the value read from V[y] to one register and advances. -/
theorem ldRegisterCopies : Obligations.LdRegisterCopies := fun x y s =>
  ⟨decode_ldReg x y, (s.setV x (s.getV y)).advance, exec_ldReg x y s, State.getV_setV_advance s x (s.getV y),
    State.pc_setV_advance s x (s.getV y), State.setV_advance_onlyChanges s x (s.getV y)⟩

end Sys2Proof.Machine
end

section
/-! The proof of O35, LD I, addr (42_index_timers.md R150), and the laws it is assembled from: the decoding of family A,
and the write of I followed by the normal advance. -/

namespace Sys2Proof

/-- A word of family A decodes to the load of its low twelve bits into I (R84, R150). -/
@[simp] theorem decode_ldI (nnn : Addr12) : decode (0xA#4 ++ nnn) = .known (.ldI nnn) := by
  simp [decode, decodeUnder]

end Sys2Proof

namespace Sys2Proof.Machine

open Sys2Proof.Safety

theorem State.i_setI_advance (s : State) (a : Word16) : (s.setI a).advance.i = a := by
  rw [State.advance_i, State.setI_i]

theorem State.pc_setI_advance (s : State) (a : Word16) : (s.setI a).advance.pc = s.pc + 2 := by
  rw [State.advance_pc, State.setI_pc]

/-- The frame of an instruction that writes I and advances: no general register changes, VF included. -/
theorem State.setI_advance_onlyChanges (s : State) (a : Word16) :
    OnlyChanges [] [.pc, .index] s (s.setI a).advance := by
  refine ⟨fun k _ => ?_, fun p hp => ?_⟩
  · rw [State.advance_getV, State.setI_getV]
  · cases p with
    | pc => exact absurd List.mem_cons_self hp
    | index => exact absurd (List.mem_cons_of_mem _ List.mem_cons_self) hp
    | _ => simp [SameIn, State.pixel]

theorem exec_ldI (nnn : Addr12) (s : State) : exec (.ldI nnn) s = .next (s.setI (zextAddr nnn)).advance := rfl

/-- Settles O35: LD I, addr writes its zero-extended address to I and advances; zero extension keeps the number, and the
address is compared with nothing. -/
theorem ldIndexLoadsTheAddress : Obligations.LdIndexLoadsTheAddress := by
  intro nnn s
  have hi : (s.setI (zextAddr nnn)).advance.i.toNat = nnn.toNat := by
    rw [State.i_setI_advance, toNat_zextAddr]
  exact ⟨decode_ldI nnn, (s.setI (zextAddr nnn)).advance, exec_ldI nnn s, hi,
    State.pc_setI_advance s (zextAddr nnn), State.setI_advance_onlyChanges s (zextAddr nnn)⟩

end Sys2Proof.Machine
end

section
/-! The proof of O56, `REDRAW` (10_state.md R35, 50_interfaces.md R208). Its one idea: writing `REDRAW` before an
instruction is the same as writing it after, unless the instruction sets it (`exec_setRedraw`); that no instruction clears
the flag and that none reads it both follow. -/

namespace Sys2Proof.Machine

open Sys2Proof.Safety

/-! ### Writing `REDRAW` commutes with the shared operations -/

@[simp] theorem State.setRedraw_self (s : State) : s.setRedraw s.redraw = s := rfl

@[simp] theorem State.setRedraw_blockAddr (s : State) (b : Bool) : (s.setRedraw b).blockAddr = s.blockAddr := rfl

theorem State.memWrite_setRedraw (s : State) (b : Bool) (a : Nat) (v : Byte) :
    (s.setRedraw b).memWrite a v = (s.memWrite a v).setRedraw b := by
  unfold State.memWrite
  split <;> rfl

theorem State.memWriteBytes_setRedraw (bytes : List Byte) (s : State) (b : Bool) (a : Nat) :
    (s.setRedraw b).memWriteBytes a bytes = (s.memWriteBytes a bytes).setRedraw b := by
  induction bytes generalizing s a with
  | nil => rfl
  | cons v rest ih => rw [State.memWriteBytes, State.memWrite_setRedraw, ih, State.memWriteBytes]

theorem State.memRead_setRedraw (s : State) (b : Bool) (a : Nat) :
    (s.setRedraw b).memRead a = ((s.memRead a).1, (s.memRead a).2.setRedraw b) := by
  unfold State.memRead
  split <;> rfl

theorem State.loadReg_setRedraw (s : State) (b : Bool) (k : Reg) (a : Nat) :
    (s.setRedraw b).loadReg k a = (s.loadReg k a).setRedraw b := by
  unfold State.loadReg
  rw [State.memRead_setRedraw]
  obtain ⟨_ | v, u⟩ := s.memRead a <;> rfl

theorem State.loadRegs_setRedraw (ks : List Reg) (s : State) (b : Bool) (a : Nat) :
    (s.setRedraw b).loadRegs a ks = (s.loadRegs a ks).setRedraw b := by
  induction ks generalizing s a with
  | nil => rfl
  | cons k rest ih => rw [State.loadRegs, State.loadReg_setRedraw, ih, State.loadRegs]

theorem drawRow_setRedraw (vx vy : Nat) (acc : State × Bool) (b : Bool) (r : Nat) :
    drawRow vx vy (acc.1.setRedraw b, acc.2) r =
      ((drawRow vx vy acc r).1.setRedraw b, (drawRow vx vy acc r).2) := by
  unfold drawRow
  rw [State.setRedraw_blockAddr, State.memRead_setRedraw]
  obtain ⟨_ | v, u⟩ := acc.1.memRead (acc.1.blockAddr r) <;> rfl

theorem foldl_drawRow_setRedraw (vx vy : Nat) (rows : List Nat) (acc : State × Bool) (b : Bool) :
    rows.foldl (drawRow vx vy) (acc.1.setRedraw b, acc.2) =
      ((rows.foldl (drawRow vx vy) acc).1.setRedraw b, (rows.foldl (drawRow vx vy) acc).2) := by
  induction rows generalizing acc with
  | nil => rfl
  | cons r rows ih => rw [List.foldl_cons, drawRow_setRedraw, ih, List.foldl_cons]

theorem drawSprite_setRedraw (vx vy n : Nat) (s : State) (b : Bool) :
    drawSprite vx vy n (s.setRedraw b) = ((drawSprite vx vy n s).1.setRedraw b, (drawSprite vx vy n s).2) :=
  foldl_drawRow_setRedraw vx vy (List.range n) (s, false) b

/-! ### The instructions that branch on the state, one equation per branch -/

theorem exec_call_full (nnn : Addr12) {s : State} (h : s.stackFull = true) :
    exec (.call nnn) s = .next (s.raise (.stackOverflow s.pc)) := if_pos h

theorem exec_call_room (nnn : Addr12) {s : State} (h : ¬ s.stackFull = true) :
    exec (.call nnn) s = .next ((s.push (s.pc + 2)).jumpTo (zextAddr nnn)) := if_neg h

theorem exec_ret_nil {s : State} (h : s.stack = []) :
    exec .ret s = .next (s.raise (.stackUnderflow s.pc)) := by
  simp only [exec, execRet, State.pop_nil h]

theorem exec_ret_append {s : State} {rest : List Word16} {a : Word16} (h : s.stack = rest ++ [a]) :
    exec .ret s = .next (s.dropTop.jumpTo a) := by
  simp only [exec, execRet, (State.pop_append h).1]

theorem exec_ldVxK_none (x : Reg) {s : State} (h : s.keyPending = none) : exec (.ldVxK x) s = .next s := by
  simp only [exec, execLdVxK, h]

theorem exec_ldVxK_some (x : Reg) {s : State} {k : Nibble} (h : s.keyPending = some k) :
    exec (.ldVxK x) s = .next ((s.setV x (zextNibble k)).setPending none).advance := by
  simp only [exec, execLdVxK, h]

/-! ### The instructions that loop, through their shared operations -/

theorem exec_ldB (x : Reg) (s : State) :
    exec (.ldB x) s = .next (s.memWriteBytes (s.blockAddr 0) (bcdDigits (s.getV x))).advance := rfl

theorem exec_ldMemVx (x : Reg) (s : State) :
    exec (.ldMemVx x) s = .next (s.memWriteBytes (s.blockAddr 0) ((regsUpTo x).map s.getV)).advance := rfl

theorem exec_ldVxMem (x : Reg) (s : State) :
    exec (.ldVxMem x) s = .next (s.loadRegs (s.blockAddr 0) (regsUpTo x)).advance := rfl

theorem exec_drw (x y : Reg) (n : Nibble) (s : State) :
    exec (.drw x y n) s =
      let drawn := drawSprite (s.getV x).toNat (s.getV y).toNat n.toNat s
      .next ((drawn.1.setFlag drawn.2).setRedraw true).advance := rfl

/-! ### Every instruction -/

/-- Running an instruction from a state with another `REDRAW` gives the same state with that `REDRAW`, or with `REDRAW` set
where the instruction is one of those that set it (R35: `partsWritten`). -/
theorem exec_setRedraw {i : Instr} {s t : State} (b : Bool) (h : exec i s = .next t) :
    exec i (s.setRedraw b) = .next (t.setRedraw (decide (Part.redraw ∈ partsWritten i) || b)) := by
  cases i with
  | call nnn =>
    by_cases hfull : s.stackFull = true
    · cases (exec_call_full nnn hfull).symm.trans h
      exact exec_call_full nnn hfull
    · cases (exec_call_room nnn hfull).symm.trans h
      exact exec_call_room nnn hfull
  | ret =>
    obtain ⟨hstack, -⟩ | ⟨rest, a, hstack, -⟩ := State.pop_cases s
    · cases (exec_ret_nil hstack).symm.trans h
      exact exec_ret_nil hstack
    · cases (exec_ret_append hstack).symm.trans h
      exact exec_ret_append hstack
  | ldVxK x =>
    cases hkey : s.keyPending with
    | none =>
      cases (exec_ldVxK_none x hkey).symm.trans h
      exact exec_ldVxK_none x hkey
    | some k =>
      cases (exec_ldVxK_some x hkey).symm.trans h
      exact exec_ldVxK_some x hkey
  | ldB x =>
    cases h
    rw [exec_ldB, State.memWriteBytes_setRedraw]
    rfl
  | ldMemVx x =>
    cases h
    rw [exec_ldMemVx, State.memWriteBytes_setRedraw]
    rfl
  | ldVxMem x =>
    cases h
    rw [exec_ldVxMem, State.loadRegs_setRedraw]
    rfl
  | drw x y n =>
    cases h
    rw [exec_drw, drawSprite_setRedraw]
    rfl
  | _ =>
    -- no branch and no loop: each operation writes one other field, or `REDRAW` itself
    cases h
    rfl

/-- `REDRAW` after an instruction: set by those that set it, otherwise as it was. -/
theorem exec_redraw {i : Instr} {s t : State} (h : exec i s = .next t) :
    t.redraw = (decide (Part.redraw ∈ partsWritten i) || s.redraw) := by
  have hself := exec_setRedraw s.redraw h
  rw [State.setRedraw_self, h] at hself
  exact congrArg State.redraw (Host.Outcome.next.inj hself)

theorem exec_keeps_redraw {i : Instr} {s t : State} (h : exec i s = .next t) (hs : s.redraw = true) :
    t.redraw = true := by
  rw [exec_redraw h, hs, Bool.or_true]

/-! ### Every event -/

theorem stepEvent_keeps_redraw {r : Byte} {s t : State} (h : stepEvent r s = .next t) (hs : s.redraw = true) :
    t.redraw = true := by
  obtain ⟨-, hrefused⟩ | ⟨-, i, -, hexec⟩ | ⟨-, w, -, hunknown⟩ := fetchDecodeExecute_cases (s.setRand r)
  · cases hrefused.symm.trans h
    exact hs
  · exact exec_keeps_redraw (hexec.symm.trans h) hs
  · cases hunknown.symm.trans h
    exact hs

@[simp] theorem eventLoad_redraw (image : List Byte) (s : State) : (eventLoad image s).redraw = s.redraw := by
  unfold eventLoad
  split <;> rfl

@[simp] theorem eventTick_redraw (s : State) : (eventTick s).redraw = s.redraw := rfl

@[simp] theorem eventKeyDown_redraw (code : Nat) (s : State) : (eventKeyDown code s).redraw = s.redraw := by
  unfold eventKeyDown
  split <;> rfl

@[simp] theorem eventKeyUp_redraw (code : Nat) (s : State) : (eventKeyUp code s).redraw = s.redraw := by
  unfold eventKeyUp
  split <;> rfl

theorem applyEvent_keeps_redraw {e : Event} {s t : State} (hack : e ≠ .redrawAck) (hreset : e ≠ .reset)
    (h : applyEvent e s = .next t) (hs : s.redraw = true) : t.redraw = true := by
  cases e with
  | reset => exact absurd rfl hreset
  | redrawAck => exact absurd rfl hack
  | step r => exact stepEvent_keeps_redraw h hs
  | load image =>
    cases h
    rw [eventLoad_redraw, hs]
  | tick =>
    cases h
    rw [eventTick_redraw, hs]
  | keyDown code =>
    cases h
    rw [eventKeyDown_redraw, hs]
  | keyUp code =>
    cases h
    rw [eventKeyUp_redraw, hs]

/-- The frame of a write of `REDRAW`. -/
theorem State.setRedraw_onlyChanges (s : State) (b : Bool) : OnlyChanges [] [.redraw] s (s.setRedraw b) := by
  refine ⟨fun k _ => State.setRedraw_getV s b k, fun p hp => ?_⟩
  cases p with
  | redraw => exact absurd (List.mem_singleton_self _) hp
  | _ => simp [SameIn]

/-- Settles O56: `redraw_ack` is the write of `REDRAW`; the other events and the instructions keep it set; and an
instruction commutes with a write of `REDRAW` up to the value it leaves there. -/
theorem redrawIsClearedOnlyByAckOrReset : Obligations.RedrawIsClearedOnlyByAckOrReset :=
  ⟨fun s => ⟨s.setRedraw false, rfl, State.setRedraw_redraw s false, State.setRedraw_onlyChanges s false⟩,
    fun _ _ _ hack hreset => applyEvent_keeps_redraw hack hreset,
    fun _ _ _ => exec_keeps_redraw,
    fun _ _ _ b h => ⟨_, exec_setRedraw b h, rfl⟩⟩

end Sys2Proof.Machine
end

section
/-! The proof of O51, `tick` (60_exceptions.md R240): the count of one timer, and the two timers and the frame of the
event. -/

namespace Sys2Proof.Machine

open Sys2Proof.Safety

/-- One count as a number: truncated subtraction says both "down by 1" and "0 stays 0" (R240). -/
@[simp] theorem toNat_countDown (a : Byte) : (countDown a).toNat = a.toNat - 1 := by
  unfold countDown
  split
  case isTrue hpos => exact BitVec.toNat_sub_of_le (BitVec.le_def.mpr hpos)
  case isFalse hzero => omega

theorem applyEvent_tick (s : State) : applyEvent .tick s = .next (eventTick s) := rfl

@[simp] theorem eventTick_dt (s : State) : (eventTick s).dt = countDown s.dt := rfl

@[simp] theorem eventTick_st (s : State) : (eventTick s).st = countDown s.st := rfl

/-- The frame of a tick: only the two timers, and no report (R240). -/
theorem eventTick_onlyChanges (s : State) : OnlyChanges [] [.delayTimer, .soundTimer] s (eventTick s) := by
  refine ⟨fun k _ => ?_, fun p hp => ?_⟩
  · rw [eventTick, State.setSt_getV, State.setDt_getV]
  · cases p with
    | delayTimer => exact absurd List.mem_cons_self hp
    | soundTimer => exact absurd (List.mem_cons_of_mem _ List.mem_cons_self) hp
    | _ => simp [SameIn, eventTick, State.pixel]

/-- The level output is high exactly while the sound timer is not 0 (R212). -/
theorem State.soundOn_eq_decide (s : State) : s.soundOn = decide (s.st.toNat ≠ 0) := by
  simp [State.soundOn, bne, BitVec.toNat_eq, beq_eq_decide]

/-- Settles O51: a tick counts each timer down once and leaves the rest, and a sound timer of 1 is counted to 0, where the
level output is low. -/
theorem tickCountsBothTimersDown : Obligations.TickCountsBothTimersDown := by
  intro s
  have hdt : (eventTick s).dt.toNat = s.dt.toNat - 1 := by rw [eventTick_dt, toNat_countDown]
  have hst : (eventTick s).st.toNat = s.st.toNat - 1 := by rw [eventTick_st, toNat_countDown]
  have hfalls (h : s.st = 1) : s.soundOn = true ∧ (eventTick s).soundOn = false := by
    rw [State.soundOn_eq_decide, State.soundOn_eq_decide, hst, h]
    decide
  exact ⟨eventTick s, applyEvent_tick s, hdt, hst, eventTick_onlyChanges s, hfalls⟩

end Sys2Proof.Machine
end

section
/-! The proofs of the encoding statements O1 to O5 (30_encoding.md R82 to R92): decode and encode agree in both
directions, the unknown words are the four sets of R88, and the decoder and the opcode table agree. Every argument goes
through the fields of a word (R82), family by family, as the decode procedure does (R84). -/

namespace Sys2Proof

open BitVec

/-! ### Decode of encode -/

/-- Decoding the word of an instruction the hardware has gives the instruction: the encoder puts the fields where the
decoder reads them. -/
theorem decodeUnder_encode {jpV0 : Bool} {i : Instr} (h : i.wellFormedUnder jpV0 = true) :
    decodeUnder jpV0 (encode i) = .known i := by
  cases i with
  | cls => rfl
  | ret => rfl
  | jpV0 nnn =>
    have hparam : jpV0 = true := h
    simp [encode, decodeUnder, hparam]
  | _ => simp [encode, decodeUnder, decodeFamily8, decodeFamilyE, decodeFamilyF]

/-- This hardware has all 34 instructions (R87, decision D8). -/
theorem Instr.wellFormed_eq_true (i : Instr) : i.wellFormed = true := by cases i <;> rfl

@[simp] theorem decode_encode (i : Instr) : decode (encode i) = .known i := decodeUnder_encode i.wellFormed_eq_true

/-- The two bytes of an instruction, high byte first, decode to it and leave the bytes after them (R57). -/
theorem decodeBytes_encodeBytes (i : Instr) (rest : List Byte) :
    decodeBytes (encodeBytes i ++ rest) = .decoded (.known i) rest := by
  simp [encodeBytes, decodeBytes]

/-- Settles O2: the word level for both values of the parameter, and the byte level for this hardware. -/
theorem decodingAnEncodedInstructionGivesItBack : Obligations.DecodingAnEncodedInstructionGivesItBack :=
  ⟨fun _ _ h => decodeUnder_encode h, fun i rest _ => decodeBytes_encodeBytes i rest⟩

/-- Settles O1: the decoder evaluated on the twenty words. -/
theorem writtenWordsDecodeToTheirInstructions : Obligations.WrittenWordsDecodeToTheirInstructions := by
  unfold Obligations.WrittenWordsDecodeToTheirInstructions
  decide

/-! ### Encode of decode -/

theorem addr_of_fieldOp {w : Word16} {op : Nibble} (h : fieldOp w = op) : op ++ fieldNNN w = w := by
  rw [← h, ← eq_addr]

theorem xnn_of_fieldOp {w : Word16} {op : Nibble} (h : fieldOp w = op) : op ++ fieldX w ++ fieldNN w = w := by
  rw [← h, ← eq_xnn]

theorem xyn_of_fieldOp {w : Word16} {op : Nibble} (h : fieldOp w = op) :
    op ++ fieldX w ++ fieldY w ++ fieldN w = w := by
  rw [← h, ← eq_xyn]

/-- Clearing no bit, for the instructions that ignore none. -/
theorem and_not_zero (w : Word16) : w &&& ~~~ (0x0000 : Word16) = w :=
  (congrArg (w &&& ·) BitVec.not_zero).trans BitVec.and_allOnes

/-- Clearing the low nibble, which `5xy?` and `9xy?` ignore. -/
theorem and_not_000F (w : Word16) : w &&& ~~~ (0x000F : Word16) = fieldOp w ++ fieldX w ++ fieldY w ++ 0x0#4 := by
  conv_lhs => rw [eq_xyn w, show ~~~ (0x000F : Word16) = allOnes 12 ++ 0#4 by decide]
  refine (BitVec.and_append (x₁ := fieldOp w ++ fieldX w ++ fieldY w) (y₁ := fieldN w)).trans ?_
  rw [BitVec.and_allOnes, BitVec.and_zero]

/-- Clearing the `y` nibble, which `8x?6` and `8x?E` ignore. -/
theorem and_not_00F0 (w : Word16) : w &&& ~~~ (0x00F0 : Word16) = fieldOp w ++ fieldX w ++ 0x0#4 ++ fieldN w := by
  conv_lhs => rw [eq_xyn w, show ~~~ (0x00F0 : Word16) = allOnes 8 ++ 0#4 ++ allOnes 4 by decide]
  refine (BitVec.and_append (x₁ := fieldOp w ++ fieldX w ++ fieldY w) (y₁ := fieldN w)).trans ?_
  rw [BitVec.and_append, BitVec.and_allOnes, BitVec.and_allOnes, BitVec.and_zero]

theorem encode_of_decodeFamily0 {w : Word16} {i : Instr} (h : decodeFamily0 w = .known i) :
    encode i = w &&& ~~~ i.ignoredBits := by
  unfold decodeFamily0 at h
  split at h
  case isTrue hw =>
    cases h
    rw [hw]
    rfl
  case isFalse =>
    split at h
    case isTrue hw =>
      cases h
      rw [hw]
      rfl
    case isFalse => cases h

theorem encode_of_decodeFamily8 {w : Word16} {i : Instr} (hop : fieldOp w = 0x8#4)
    (h : decodeFamily8 w = .known i) : encode i = w &&& ~~~ i.ignoredBits := by
  have hw := xyn_of_fieldOp hop
  unfold decodeFamily8 at h
  split at h <;> cases h
  all_goals next _ hn =>
    rw [hn] at hw
    simp only [encode, Instr.ignoredBits, and_not_zero, and_not_00F0, hw, hop, hn]

theorem encode_of_decodeFamilyE {w : Word16} {i : Instr} (hop : fieldOp w = 0xE#4)
    (h : decodeFamilyE w = .known i) : encode i = w &&& ~~~ i.ignoredBits := by
  have hw := xnn_of_fieldOp hop
  unfold decodeFamilyE at h
  split at h <;> cases h
  all_goals next _ hnn =>
    rw [hnn] at hw
    exact hw.trans (and_not_zero w).symm

theorem encode_of_decodeFamilyF {w : Word16} {i : Instr} (hop : fieldOp w = 0xF#4)
    (h : decodeFamilyF w = .known i) : encode i = w &&& ~~~ i.ignoredBits := by
  have hw := xnn_of_fieldOp hop
  unfold decodeFamilyF at h
  split at h <;> cases h
  all_goals next _ hnn =>
    rw [hnn] at hw
    exact hw.trans (and_not_zero w).symm

/-- Settles O3: family by family, the fields the encoder writes are those the decoder read, and the one nibble it writes
as 0 is the nibble the decoder ignored. -/
theorem encodingADecodedWordClearsOnlyIgnoredBits : Obligations.EncodingADecodedWordClearsOnlyIgnoredBits := by
  intro w i h
  unfold decode decodeUnder at h
  split at h
  case h_1 => exact encode_of_decodeFamily0 h
  case h_9 hop => exact encode_of_decodeFamily8 hop h
  case h_15 hop => exact encode_of_decodeFamilyE hop h
  case h_16 hop => exact encode_of_decodeFamilyF hop h
  all_goals cases h
  all_goals next _ hop =>
    simp only [encode, Instr.ignoredBits, and_not_zero, and_not_000F, hop, addr_of_fieldOp hop, xnn_of_fieldOp hop,
      xyn_of_fieldOp hop]

/-! ### The unknown words -/

theorem decodeFamily0_unknown_iff (w : Word16) :
    (∃ w', decodeFamily0 w = .unknown w') ↔ w ≠ 0x00E0 ∧ w ≠ 0x00EE := by
  unfold decodeFamily0
  split
  · simp_all
  · split <;> simp_all

theorem decodeFamily8_unknown_iff (w : Word16) : (∃ w', decodeFamily8 w = .unknown w') ↔
    fieldN w ∈ [0x8#4, 0x9#4, 0xA#4, 0xB#4, 0xC#4, 0xD#4, 0xF#4] := by
  unfold decodeFamily8
  split <;> simp_all
  bv_omega

theorem decodeFamilyE_unknown_iff (w : Word16) :
    (∃ w', decodeFamilyE w = .unknown w') ↔ fieldNN w ∉ [0x9E#8, 0xA1#8] := by
  unfold decodeFamilyE
  split <;> simp_all

theorem decodeFamilyF_unknown_iff (w : Word16) : (∃ w', decodeFamilyF w = .unknown w') ↔
    fieldNN w ∉ [0x07#8, 0x0A#8, 0x15#8, 0x18#8, 0x1E#8, 0x29#8, 0x33#8, 0x55#8, 0x65#8] := by
  unfold decodeFamilyF
  split <;> simp_all

/-- A word of a family with one operation is never unknown; the other families are those of the four sets. -/
theorem decode_unknown_iff (w : Word16) : (∃ w', decode w = .unknown w') ↔
    (fieldOp w = 0x0 ∧ ∃ w', decodeFamily0 w = .unknown w') ∨ (fieldOp w = 0x8 ∧ ∃ w', decodeFamily8 w = .unknown w') ∨
      (fieldOp w = 0xE ∧ ∃ w', decodeFamilyE w = .unknown w') ∨
      (fieldOp w = 0xF ∧ ∃ w', decodeFamilyF w = .unknown w') := by
  unfold decode decodeUnder
  split <;> simp_all
  bv_omega

theorem decodeFamily0_sentinel {w w' : Word16} (h : decodeFamily0 w = .unknown w') : w' = w := by
  unfold decodeFamily0 at h
  split at h
  · cases h
  · split at h <;> cases h
    rfl

theorem decodeFamily8_sentinel {w w' : Word16} (h : decodeFamily8 w = .unknown w') : w' = w := by
  unfold decodeFamily8 at h
  split at h <;> cases h
  rfl

theorem decodeFamilyE_sentinel {w w' : Word16} (h : decodeFamilyE w = .unknown w') : w' = w := by
  unfold decodeFamilyE at h
  split at h <;> cases h
  rfl

theorem decodeFamilyF_sentinel {w w' : Word16} (h : decodeFamilyF w = .unknown w') : w' = w := by
  unfold decodeFamilyF at h
  split at h <;> cases h
  rfl

/-- The sentinel carries the word it stands for (R88). -/
theorem decode_sentinel {w w' : Word16} (h : decode w = .unknown w') : w' = w := by
  unfold decode decodeUnder at h
  split at h
  case h_1 => exact decodeFamily0_sentinel h
  case h_9 => exact decodeFamily8_sentinel h
  case h_15 => exact decodeFamilyE_sentinel h
  case h_16 => exact decodeFamilyF_sentinel h
  all_goals cases h
  rfl

/-- Settles O4: each of the four families answers the sentinel on its set, and the sentinel carries the word. -/
theorem unknownWordsAreTheFourSets : Obligations.UnknownWordsAreTheFourSets := by
  intro w
  rw [decode_unknown_iff, decodeFamily0_unknown_iff, decodeFamily8_unknown_iff, decodeFamilyE_unknown_iff,
    decodeFamilyF_unknown_iff]
  exact ⟨Iff.rfl, fun _ => decode_sentinel⟩

/-! ### The opcode table -/

theorem OpcodeRow.selects_iff (r : OpcodeRow) (w : Word16) : r.selects w = true ↔ w &&& r.mask = r.pattern := by
  simp [OpcodeRow.selects]

theorem Instr.row_mem_opcodeTable (i : Instr) : i.row ∈ opcodeTable := by
  cases i <;> simp [Instr.row, opcodeTable]

/-- A row fixes none of the bits the decoder ignores. -/
theorem Instr.row_mask_clears_ignoredBits (i : Instr) : ~~~ i.ignoredBits &&& i.row.mask = i.row.mask := by
  cases i <;> simp only [Instr.ignoredBits, Instr.row] <;> decide

/-- The word of an instruction selects its row. -/
theorem Instr.row_selects_encode (i : Instr) : i.row.selects (encode i) = true := by
  cases i with
  | cls => exact Laws.RowMatch.cls
  | ret => exact Laws.RowMatch.ret
  | jp nnn => exact Laws.RowMatch.jp nnn
  | call nnn => exact Laws.RowMatch.call nnn
  | seImm x nn => exact Laws.RowMatch.seImm x nn
  | sneImm x nn => exact Laws.RowMatch.sneImm x nn
  | seReg x y => exact Laws.RowMatch.seReg x y
  | ldImm x nn => exact Laws.RowMatch.ldImm x nn
  | addImm x nn => exact Laws.RowMatch.addImm x nn
  | ldReg x y => exact Laws.RowMatch.ldReg x y
  | orReg x y => exact Laws.RowMatch.orReg x y
  | andReg x y => exact Laws.RowMatch.andReg x y
  | xorReg x y => exact Laws.RowMatch.xorReg x y
  | addReg x y => exact Laws.RowMatch.addReg x y
  | sub x y => exact Laws.RowMatch.sub x y
  | shr x => exact Laws.RowMatch.shr x
  | subn x y => exact Laws.RowMatch.subn x y
  | shl x => exact Laws.RowMatch.shl x
  | sneReg x y => exact Laws.RowMatch.sneReg x y
  | ldI nnn => exact Laws.RowMatch.ldI nnn
  | jpV0 nnn => exact Laws.RowMatch.jpV0 nnn
  | rnd x nn => exact Laws.RowMatch.rnd x nn
  | drw x y n => exact Laws.RowMatch.drw x y n
  | skp x => exact Laws.RowMatch.skp x
  | sknp x => exact Laws.RowMatch.sknp x
  | ldVxDt x => exact Laws.RowMatch.ldVxDt x
  | ldVxK x => exact Laws.RowMatch.ldVxK x
  | ldDtVx x => exact Laws.RowMatch.ldDtVx x
  | ldStVx x => exact Laws.RowMatch.ldStVx x
  | addI x => exact Laws.RowMatch.addI x
  | ldF x => exact Laws.RowMatch.ldF x
  | ldB x => exact Laws.RowMatch.ldB x
  | ldMemVx x => exact Laws.RowMatch.ldMemVx x
  | ldVxMem x => exact Laws.RowMatch.ldVxMem x

/-- A decoded word selects its instruction's row: it differs from the instruction's own word only in ignored bits. -/
theorem row_selects_of_decode {w : Word16} {i : Instr} (h : decode w = .known i) : i.row.selects w = true := by
  have hown := i.row_selects_encode
  rw [encodingADecodedWordClearsOnlyIgnoredBits w i h, OpcodeRow.selects_iff, BitVec.and_assoc,
    i.row_mask_clears_ignoredBits] at hown
  exact (OpcodeRow.selects_iff _ _).mpr hown

/-- No word selects two rows: two rows agree on the bits both fix only when they are one row. -/
theorem opcodeTable_disjoint : ∀ r ∈ opcodeTable, ∀ r' ∈ opcodeTable,
    r.pattern &&& r'.mask = r'.pattern &&& r.mask → r = r' := by decide

theorem eq_of_selects {w : Word16} {r r' : OpcodeRow} (hr : r ∈ opcodeTable) (hr' : r' ∈ opcodeTable)
    (h : r.selects w = true) (h' : r'.selects w = true) : r = r' := by
  rw [OpcodeRow.selects_iff] at h h'
  refine opcodeTable_disjoint r hr r' hr' ?_
  rw [← h, ← h', BitVec.and_assoc, BitVec.and_assoc, BitVec.and_comm r.mask]

/-- A selected row's pattern and the word agree in every field the row fixes. -/
theorem and_eq_of_selects {w m : Word16} {r : OpcodeRow} (h : r.selects w = true) (hm : r.mask &&& m = m) :
    w &&& m = r.pattern &&& m := by
  rw [← (OpcodeRow.selects_iff r w).mp h, BitVec.and_assoc, hm]

theorem fieldOp_eq_of_and {w w' : Word16} (h : w &&& 0xF000 = w' &&& 0xF000) : fieldOp w = fieldOp w' := by
  have := congrArg fieldOp ((and_maskF000 w).symm.trans (h.trans (and_maskF000 w')))
  rwa [fieldOp_addr, fieldOp_addr] at this

theorem fieldN_eq_of_and {w w' : Word16} (h : w &&& 0xF00F = w' &&& 0xF00F) : fieldN w = fieldN w' := by
  have := congrArg fieldN ((and_maskF00F w).symm.trans (h.trans (and_maskF00F w')))
  rwa [fieldN_xyn, fieldN_xyn] at this

theorem fieldNN_eq_of_and {w w' : Word16} (h : w &&& 0xF0FF = w' &&& 0xF0FF) : fieldNN w = fieldNN w' := by
  have := congrArg fieldNN ((and_maskF0FF w).symm.trans (h.trans (and_maskF0FF w')))
  rwa [fieldNN_xnn, fieldNN_xnn] at this

/-- Every row fixes the family. -/
theorem opcodeTable_fixes_op : ∀ r ∈ opcodeTable, r.mask &&& 0xF000 = 0xF000 := by decide

theorem opcodeTable_family0 : ∀ r ∈ opcodeTable, fieldOp r.pattern = 0x0 →
    r.mask = 0xFFFF ∧ (r.pattern = 0x00E0 ∨ r.pattern = 0x00EE) := by decide

theorem opcodeTable_family8 : ∀ r ∈ opcodeTable, fieldOp r.pattern = 0x8 → r.mask &&& 0xF00F = 0xF00F ∧
    fieldN r.pattern ∉ [0x8#4, 0x9#4, 0xA#4, 0xB#4, 0xC#4, 0xD#4, 0xF#4] := by decide

theorem opcodeTable_familyE : ∀ r ∈ opcodeTable, fieldOp r.pattern = 0xE → r.mask &&& 0xF0FF = 0xF0FF ∧
    fieldNN r.pattern ∈ [0x9E#8, 0xA1#8] := by decide

theorem opcodeTable_familyF : ∀ r ∈ opcodeTable, fieldOp r.pattern = 0xF → r.mask &&& 0xF0FF = 0xF0FF ∧
    fieldNN r.pattern ∈ [0x07#8, 0x0A#8, 0x15#8, 0x18#8, 0x1E#8, 0x29#8, 0x33#8, 0x55#8, 0x65#8] := by decide

/-- A word that selects a row is known: it shares with the row's pattern the fields its family is decoded by, and no
pattern has them in one of the four sets. -/
theorem known_of_selects {w : Word16} {r : OpcodeRow} (hr : r ∈ opcodeTable) (h : r.selects w = true) :
    ¬ ∃ w', decode w = .unknown w' := by
  have hop : fieldOp w = fieldOp r.pattern := fieldOp_eq_of_and (and_eq_of_selects h (opcodeTable_fixes_op r hr))
  rw [(unknownWordsAreTheFourSets w).1, hop]
  rintro (⟨hf, hne, hne'⟩ | ⟨hf, hn⟩ | ⟨hf, hnn⟩ | ⟨hf, hnn⟩)
  · obtain ⟨hmask, hpat⟩ := opcodeTable_family0 r hr hf
    rw [OpcodeRow.selects_iff, hmask, show (0xFFFF : Word16) = allOnes 16 by decide, BitVec.and_allOnes] at h
    rw [← h] at hpat
    exact hpat.elim hne hne'
  · obtain ⟨hmask, hpat⟩ := opcodeTable_family8 r hr hf
    rw [fieldN_eq_of_and (and_eq_of_selects h hmask)] at hn
    exact hpat hn
  · obtain ⟨hmask, hpat⟩ := opcodeTable_familyE r hr hf
    rw [fieldNN_eq_of_and (and_eq_of_selects h hmask)] at hnn
    exact hnn hpat
  · obtain ⟨hmask, hpat⟩ := opcodeTable_familyF r hr hf
    rw [fieldNN_eq_of_and (and_eq_of_selects h hmask)] at hnn
    exact hnn hpat

/-- Settles O5: a decoded word selects its own row, no word selects two rows, and a word that selects one is known. -/
theorem decoderAgreesWithTheOpcodeTable : Obligations.DecoderAgreesWithTheOpcodeTable := by
  intro w
  refine ⟨fun i h => ⟨i.row_mem_opcodeTable, row_selects_of_decode h, fun r hr hsel => ?_⟩, fun w' h r hr => ?_⟩
  · exact eq_of_selects hr i.row_mem_opcodeTable hsel (row_selects_of_decode h)
  · exact Bool.eq_false_iff.mpr fun hsel => known_of_selects hr hsel ⟨w', h⟩

end Sys2Proof
end

section
/-! The proof of O11, what an instruction may change (10_state.md R21 to R37), and the frames it is assembled from: the
frame of each shared operation once, and a law for operations in sequence. The frames of the single instructions, stated
here, serve the statements about them below. -/

namespace Sys2Proof.Safety

open Sys2Proof.Machine

/-! ### Frames of operations in sequence -/

theorem SameIn.refl (s : State) (p : Part) : SameIn s s p := by cases p <;> simp [SameIn]

theorem SameIn.trans {s t u : State} {p : Part} (h : SameIn s t p) (h' : SameIn t u p) : SameIn s u p := by
  cases p <;> simp_all [SameIn]

theorem OnlyChanges.refl (s : State) : OnlyChanges [] [] s s := ⟨fun _ _ => rfl, fun p _ => SameIn.refl s p⟩

/-- A frame may be widened. -/
theorem OnlyChanges.mono {ks ks' : List Reg} {ps ps' : List Part} {s t : State} (h : OnlyChanges ks ps s t)
    (hks : ks ⊆ ks' := by simp) (hps : ps ⊆ ps' := by simp [partsWritten]) : OnlyChanges ks' ps' s t :=
  ⟨fun k hk => h.1 k fun hmem => hk (hks hmem), fun p hp => h.2 p fun hmem => hp (hps hmem)⟩

/-- Two operations in sequence change what one of them changes. -/
theorem OnlyChanges.trans {ks ks₁ ks₂ : List Reg} {ps ps₁ ps₂ : List Part} {s t u : State}
    (h₁ : OnlyChanges ks₁ ps₁ s t) (h₂ : OnlyChanges ks₂ ps₂ t u)
    (hks : ks₁ ++ ks₂ ⊆ ks := by simp) (hps : ps₁ ++ ps₂ ⊆ ps := by simp) : OnlyChanges ks ps s u := by
  obtain ⟨hk₁, hk₂⟩ := List.append_subset.mp hks
  obtain ⟨hp₁, hp₂⟩ := List.append_subset.mp hps
  obtain ⟨hreg₁, hpart₁⟩ := h₁.mono hk₁ hp₁
  obtain ⟨hreg₂, hpart₂⟩ := h₂.mono hk₂ hp₂
  exact ⟨fun k hk => (hreg₂ k hk).trans (hreg₁ k hk), fun p hp => (hpart₁ p hp).trans (hpart₂ p hp)⟩

end Sys2Proof.Safety

namespace Sys2Proof.Machine

open Sys2Proof.Safety

/-! ### The frame of each shared operation -/

theorem State.raise_onlyChanges (s : State) (r : Report) : OnlyChanges [] [.reports] s (s.raise r) :=
  ⟨fun _ _ => rfl, fun p hp => by cases p <;> simp [SameIn] at hp ⊢⟩

theorem State.advance_onlyChanges (s : State) : OnlyChanges [] [.pc] s s.advance :=
  ⟨fun _ _ => rfl, fun p hp => by cases p <;> simp [SameIn] at hp ⊢⟩

theorem State.advanceSkipping_onlyChanges (s : State) (b : Bool) : OnlyChanges [] [.pc] s (s.advanceSkipping b) :=
  ⟨fun _ _ => rfl, fun p hp => by cases p <;> simp [SameIn] at hp ⊢⟩

theorem State.setV_onlyChanges (s : State) (k : Reg) (a : Byte) : OnlyChanges [k] [] s (s.setV k a) :=
  ⟨fun _ hj => State.getV_setV_other s a (List.ne_of_not_mem_cons hj), fun p _ => by cases p <;> simp [SameIn]⟩

theorem State.setDt_onlyChanges (s : State) (a : Byte) : OnlyChanges [] [.delayTimer] s (s.setDt a) :=
  ⟨fun _ _ => rfl, fun p hp => by cases p <;> simp [SameIn] at hp ⊢⟩

theorem State.setSt_onlyChanges (s : State) (a : Byte) : OnlyChanges [] [.soundTimer] s (s.setSt a) :=
  ⟨fun _ _ => rfl, fun p hp => by cases p <;> simp [SameIn] at hp ⊢⟩

theorem State.setMem_onlyChanges (s : State) (m : Memory) : OnlyChanges [] [.memory] s (s.setMem m) :=
  ⟨fun _ _ => rfl, fun p hp => by cases p <;> simp [SameIn] at hp ⊢⟩

theorem State.setDisp_onlyChanges (s : State) (d : Display) : OnlyChanges [] [.display] s (s.setDisp d) :=
  ⟨fun _ _ => rfl, fun p hp => by cases p <;> simp [SameIn] at hp ⊢⟩

theorem State.setPending_onlyChanges (s : State) (k : Option Nibble) :
    OnlyChanges [] [.keyPending] s (s.setPending k) :=
  ⟨fun _ _ => rfl, fun p hp => by cases p <;> simp [SameIn] at hp ⊢⟩

theorem State.setHeld_onlyChanges (s : State) (code : Nat) (b : Bool) :
    OnlyChanges [] [.keyHeld] s (s.setHeld code b) :=
  ⟨fun _ _ => rfl, fun p hp => by cases p <;> simp [SameIn] at hp ⊢⟩

theorem State.setRand_onlyChanges (s : State) (r : Byte) : OnlyChanges [] [.outside] s (s.setRand r) :=
  ⟨fun _ _ => rfl, fun p hp => by cases p <;> simp [SameIn] at hp ⊢⟩

theorem State.push_onlyChanges (s : State) (a : Word16) : OnlyChanges [] [.stack] s (s.push a) :=
  ⟨fun _ _ => rfl, fun p hp => by cases p <;> simp [SameIn] at hp ⊢⟩

theorem State.dropTop_onlyChanges (s : State) : OnlyChanges [] [.stack] s s.dropTop :=
  ⟨fun _ _ => rfl, fun p hp => by cases p <;> simp [SameIn] at hp ⊢⟩

theorem State.memWriteBytes_onlyChanges (s : State) (a : Nat) (bytes : List Byte) :
    OnlyChanges [] [.memory, .reports] s (s.memWriteBytes a bytes) :=
  ⟨fun k _ => State.memWriteBytes_getV s a bytes k, fun p hp => by cases p <;> simp [SameIn] at hp ⊢⟩

theorem State.loadReg_onlyChanges (s : State) (k : Reg) (a : Nat) :
    OnlyChanges [k] [.reports] s (s.loadReg k a) := by
  obtain ⟨-, h⟩ | ⟨-, h⟩ := State.loadReg_cases s k a <;> rw [h]
  · exact (State.setV_onlyChanges s k _).mono
  · exact (State.raise_onlyChanges s _).mono

theorem State.loadRegs_onlyChanges (ks : List Reg) (s : State) (a : Nat) :
    OnlyChanges ks [.reports] s (s.loadRegs a ks) := by
  induction ks generalizing s a with
  | nil => exact (OnlyChanges.refl s).mono
  | cons k rest ih => exact (State.loadReg_onlyChanges s k a).trans (ih (s.loadReg k a) (a + 1))

theorem drawSprite_onlyChanges (vx vy n : Nat) (s : State) :
    OnlyChanges [] [.display, .reports] s (drawSprite vx vy n s).1 :=
  ⟨fun k _ => drawSprite_getV vx vy n s k, fun p hp => by cases p <;> simp [SameIn] at hp ⊢⟩

theorem State.setFlag_onlyChanges (s : State) (b : Bool) : OnlyChanges [vf] [] s (s.setFlag b) :=
  State.setV_onlyChanges s vf (flagByte b)

theorem State.writeResultAndFlag_onlyChanges (s : State) (x : Reg) (r : Byte) (b : Bool) :
    OnlyChanges [x, vf] [.pc] s (s.writeResultAndFlag x r b) :=
  ((State.setV_onlyChanges s x r).trans (State.setFlag_onlyChanges _ b) (ks := [x, vf]) (ps := [])).trans
    (State.advance_onlyChanges _)

/-! ### The frame of each instruction that is more than one operation -/

theorem State.setDt_advance_onlyChanges (s : State) (a : Byte) :
    OnlyChanges [] [.pc, .delayTimer] s (s.setDt a).advance :=
  (State.setDt_onlyChanges s a).trans (State.advance_onlyChanges _)

theorem State.setSt_advance_onlyChanges (s : State) (a : Byte) :
    OnlyChanges [] [.pc, .soundTimer] s (s.setSt a).advance :=
  (State.setSt_onlyChanges s a).trans (State.advance_onlyChanges _)

theorem State.takeKey_onlyChanges (s : State) (x : Reg) (a : Byte) :
    OnlyChanges [x] [.pc, .keyPending] s ((s.setV x a).setPending none).advance :=
  ((State.setV_onlyChanges s x a).trans (State.setPending_onlyChanges _ none) (ks := [x]) (ps := [.keyPending])).trans
    (State.advance_onlyChanges _)

theorem State.memWriteBytes_advance_onlyChanges (s : State) (a : Nat) (bytes : List Byte) :
    OnlyChanges [] [.pc, .memory, .reports] s (s.memWriteBytes a bytes).advance :=
  (State.memWriteBytes_onlyChanges s a bytes).trans (State.advance_onlyChanges _)

theorem State.loadRegs_advance_onlyChanges (s : State) (a : Nat) (ks : List Reg) :
    OnlyChanges ks [.pc, .reports] s (s.loadRegs a ks).advance :=
  (State.loadRegs_onlyChanges ks s a).trans (State.advance_onlyChanges _)

theorem State.push_jumpTo_onlyChanges (s : State) (a target : Word16) :
    OnlyChanges [] [.pc, .stack] s ((s.push a).jumpTo target) :=
  (State.push_onlyChanges s a).trans (State.jumpTo_onlyChanges _ target)

theorem State.dropTop_jumpTo_onlyChanges (s : State) (target : Word16) :
    OnlyChanges [] [.pc, .stack] s (s.dropTop.jumpTo target) :=
  (State.dropTop_onlyChanges s).trans (State.jumpTo_onlyChanges _ target)

theorem State.setRedraw_advance_onlyChanges (s : State) (b : Bool) :
    OnlyChanges [] [.pc, .redraw] s (s.setRedraw b).advance :=
  (State.setRedraw_onlyChanges s b).trans (State.advance_onlyChanges _)

theorem State.clear_onlyChanges (s : State) :
    OnlyChanges [] [.pc, .display, .redraw] s ((s.setDisp Display.clear).setRedraw true).advance :=
  (State.setDisp_onlyChanges s _).trans (State.setRedraw_advance_onlyChanges _ true)

theorem drawSprite_setFlag_onlyChanges (vx vy n : Nat) (s : State) (b : Bool) :
    OnlyChanges [vf] [.pc, .display, .redraw, .reports] s
      (((drawSprite vx vy n s).1.setFlag b).setRedraw true).advance :=
  ((drawSprite_onlyChanges vx vy n s).trans (State.setFlag_onlyChanges _ b) (ks := [vf])
    (ps := [.display, .reports])).trans (State.setRedraw_advance_onlyChanges _ true)

/-! ### The instructions that branch on the state, inverted -/

theorem exec_ret_cases {s t : State} (h : exec .ret s = .next t) :
    (s.stack = [] ∧ t = s.raise (.stackUnderflow s.pc)) ∨
      ∃ rest a, s.stack = rest ++ [a] ∧ t = s.dropTop.jumpTo a := by
  obtain ⟨hstack, -⟩ | ⟨rest, a, hstack, -⟩ := State.pop_cases s
  · cases (exec_ret_nil hstack).symm.trans h
    exact .inl ⟨hstack, rfl⟩
  · cases (exec_ret_append hstack).symm.trans h
    exact .inr ⟨rest, a, hstack, rfl⟩

theorem exec_call_cases {nnn : Addr12} {s t : State} (h : exec (.call nnn) s = .next t) :
    (s.stackFull = true ∧ t = s.raise (.stackOverflow s.pc)) ∨
      (¬ s.stackFull = true ∧ t = (s.push (s.pc + 2)).jumpTo (zextAddr nnn)) := by
  by_cases hfull : s.stackFull = true
  · cases (exec_call_full nnn hfull).symm.trans h
    exact .inl ⟨hfull, rfl⟩
  · cases (exec_call_room nnn hfull).symm.trans h
    exact .inr ⟨hfull, rfl⟩

theorem exec_ldVxK_cases {x : Reg} {s t : State} (h : exec (.ldVxK x) s = .next t) :
    (s.keyPending = none ∧ t = s) ∨
      ∃ k, s.keyPending = some k ∧ t = ((s.setV x (zextNibble k)).setPending none).advance := by
  cases hkey : s.keyPending with
  | none =>
    cases (exec_ldVxK_none x hkey).symm.trans h
    exact .inl ⟨rfl, rfl⟩
  | some k =>
    cases (exec_ldVxK_some x hkey).symm.trans h
    exact .inr ⟨k, rfl, rfl⟩

/-! ### Every instruction -/

/-- Settles O11: each instruction is a sequence of shared operations, and the tables list what those change. -/
theorem instructionsChangeOnlyWhatTheTablesList : Obligations.InstructionsChangeOnlyWhatTheTablesList := by
  intro i s t h
  cases i with
  | cls =>
    cases h
    exact State.clear_onlyChanges s
  | ret =>
    obtain ⟨-, rfl⟩ | ⟨rest, a, -, rfl⟩ := exec_ret_cases h
    · exact (State.raise_onlyChanges s _).mono
    · exact (State.dropTop_jumpTo_onlyChanges s a).mono
  | call nnn =>
    obtain ⟨-, rfl⟩ | ⟨-, rfl⟩ := exec_call_cases h
    · exact (State.raise_onlyChanges s _).mono
    · exact (State.push_jumpTo_onlyChanges s _ _).mono
  | jp nnn | jpV0 nnn =>
    cases h
    exact State.jumpTo_onlyChanges s _
  | seImm x nn | sneImm x nn | seReg x y | sneReg x y | skp x | sknp x =>
    cases h
    exact State.advanceSkipping_onlyChanges s _
  | ldImm x nn | addImm x nn | ldReg x y | orReg x y | andReg x y | xorReg x y | rnd x nn | ldVxDt x =>
    cases h
    exact State.setV_advance_onlyChanges s x _
  | addReg x y | sub x y | shr x | subn x y | shl x =>
    cases h
    exact State.writeResultAndFlag_onlyChanges s x _ _
  | ldI nnn | addI x | ldF x =>
    cases h
    exact State.setI_advance_onlyChanges s _
  | ldDtVx x =>
    cases h
    exact State.setDt_advance_onlyChanges s _
  | ldStVx x =>
    cases h
    exact State.setSt_advance_onlyChanges s _
  | ldVxK x =>
    obtain ⟨-, rfl⟩ | ⟨k, -, rfl⟩ := exec_ldVxK_cases h
    · exact (OnlyChanges.refl _).mono
    · exact State.takeKey_onlyChanges s x _
  | ldB x | ldMemVx x =>
    cases h
    exact State.memWriteBytes_advance_onlyChanges s _ _
  | ldVxMem x =>
    cases h
    exact State.loadRegs_advance_onlyChanges s _ _
  | drw x y n =>
    cases h
    exact drawSprite_setFlag_onlyChanges _ _ _ s _

end Sys2Proof.Machine
end

section
/-! The proofs of O10, O12, O13 and O14: nothing stops the machine, which instruction raises which reports, and what no
instruction reads (60_exceptions.md R230 to R233, 44_random.md R175). -/

namespace Sys2Proof.Machine

open Sys2Proof.Safety

/-! ### Totality -/

/-- Every instruction has a next state: a fault is a report (R230). -/
theorem exec_next (i : Instr) (s : State) : ∃ t, exec i s = .next t := by
  cases i with
  | ret =>
    obtain ⟨hstack, -⟩ | ⟨rest, a, hstack, -⟩ := State.pop_cases s
    · exact ⟨_, exec_ret_nil hstack⟩
    · exact ⟨_, exec_ret_append hstack⟩
  | call nnn =>
    by_cases hfull : s.stackFull = true
    · exact ⟨_, exec_call_full nnn hfull⟩
    · exact ⟨_, exec_call_room nnn hfull⟩
  | ldVxK x =>
    cases hkey : s.keyPending with
    | none => exact ⟨_, exec_ldVxK_none x hkey⟩
    | some k => exact ⟨_, exec_ldVxK_some x hkey⟩
  | _ => exact ⟨_, rfl⟩

theorem fetchDecodeExecute_next (s : State) : ∃ t, fetchDecodeExecute s = .next t := by
  obtain ⟨-, h⟩ | ⟨-, i, -, h⟩ | ⟨-, w, -, h⟩ := fetchDecodeExecute_cases s
  · exact ⟨_, h⟩
  · rw [h]
    exact exec_next i s
  · exact ⟨_, h⟩

theorem applyEvent_next (e : Event) (s : State) : ∃ t, applyEvent e s = .next t := by
  cases e with
  | step r => exact fetchDecodeExecute_next (s.setRand r)
  | _ => exact ⟨_, rfl⟩

theorem step_next (s : State) : ∃ t, step s = .next t := by
  obtain ⟨-, h⟩ | ⟨e, rest, -, h⟩ := step_cases s <;> rw [h]
  · exact fetchDecodeExecute_next _
  · exact applyEvent_next e _

theorem core_run_next (n : Nat) (s : State) : ∃ t, Sys2Proof.core.run n s = .next t := by
  induction n generalizing s with
  | zero => exact ⟨s, rfl⟩
  | succ n ih =>
    obtain ⟨t, h⟩ := step_next s
    rw [core_run_succ n h]
    exact ih t

/-- Settles O10: one transition through its cases, any number of them by induction. -/
theorem everyTransitionGivesANextState : Obligations.EveryTransitionGivesANextState := ⟨step_next, core_run_next⟩

/-! ### The reports of an instruction -/

theorem mem_refusals {kind : Access} {allowed : Nat → Bool} {addrs : List Nat} {r : Report}
    (h : r ∈ refusals kind allowed addrs) : ∃ a, r = .memOutOfRange kind a := by
  obtain ⟨a, -, ha⟩ := List.mem_map.mp h
  exact ⟨a, ha.symm⟩

theorem length_refusals_le (kind : Access) (allowed : Nat → Bool) (addrs : List Nat) :
    (refusals kind allowed addrs).length ≤ addrs.length := by
  rw [refusals, List.length_map]
  exact List.length_filter_le _ _

/-- The reports of one execution: appended to the log, each of a kind the table gives the instruction, and at most as
many (R233). -/
def ReportsAsListed (i : Instr) (s t : State) : Prop :=
  ∃ rs, t.log = s.log ++ rs ∧ rs.length ≤ maxReports i ∧ ∀ r ∈ rs, mayReport i r

theorem ReportsAsListed.of_log_eq {i : Instr} {s t : State} (h : t.log = s.log) : ReportsAsListed i s t :=
  ⟨[], by rw [h, List.append_nil], Nat.zero_le _, fun _ hr => absurd hr List.not_mem_nil⟩

theorem ReportsAsListed.of_one {i : Instr} {s t : State} {r : Report} (h : t.log = s.log ++ [r])
    (hmax : 1 ≤ maxReports i) (hmay : mayReport i r) : ReportsAsListed i s t :=
  ⟨[r], h, hmax, fun _ hr => List.mem_singleton.mp hr ▸ hmay⟩

theorem ReportsAsListed.of_refusals {i : Instr} {s t : State} {kind : Access} {allowed : Nat → Bool}
    {addrs : List Nat} (h : t.log = s.log ++ refusals kind allowed addrs) (hmax : addrs.length ≤ maxReports i)
    (hmay : ∀ a, mayReport i (.memOutOfRange kind a)) : ReportsAsListed i s t := by
  refine ⟨_, h, (length_refusals_le kind allowed addrs).trans hmax, fun r hr => ?_⟩
  obtain ⟨a, rfl⟩ := mem_refusals hr
  exact hmay a

/-- An instruction whose frame has no reports raises none. -/
theorem exec_log_of_not_mem {i : Instr} {s t : State} (h : exec i s = .next t) (hi : Part.reports ∉ partsWritten i) :
    t.log = s.log := (instructionsChangeOnlyWhatTheTablesList i s t h).2 .reports hi

/-- The six instructions that can report do so through the log of their shared operation; the frames of the others have
no reports. -/
theorem exec_reportsAsListed {i : Instr} {s t : State} (h : exec i s = .next t) : ReportsAsListed i s t := by
  cases i with
  | ret =>
    obtain ⟨-, rfl⟩ | ⟨rest, a, -, rfl⟩ := exec_ret_cases h
    · exact .of_one rfl Nat.le.refl trivial
    · exact .of_log_eq rfl
  | call nnn =>
    obtain ⟨-, rfl⟩ | ⟨-, rfl⟩ := exec_call_cases h
    · exact .of_one rfl Nat.le.refl trivial
    · exact .of_log_eq rfl
  | ldB x =>
    cases h
    exact .of_refusals (State.memWriteBytes_log _ s _) (by simp [bcdDigits, maxReports]) fun _ => trivial
  | ldMemVx x =>
    cases h
    exact .of_refusals (State.memWriteBytes_log _ s _) (by simp [maxReports]) fun _ => trivial
  | ldVxMem x =>
    cases h
    exact .of_refusals (State.loadRegs_log _ s _) (by simp [maxReports]) fun _ => trivial
  | drw x y n =>
    cases h
    exact .of_refusals (drawSprite_log _ _ _ s) (by simp [maxReports]) fun _ => trivial
  | _ => exact .of_log_eq (exec_log_of_not_mem h (by simp [partsWritten]))

/-- Settles O12: the reports are as listed for each instruction. -/
theorem instructionsRaiseOnlyTheirOwnReports : Obligations.InstructionsRaiseOnlyTheirOwnReports :=
  fun _ _ _ => exec_reportsAsListed

/-! ### What no instruction reads -/

/-- The state with another history: earlier reports before its own, and another random byte latched. -/
def State.withHistory (s : State) (earlier : List Report) (r : Byte) : State :=
  { s with log := earlier ++ s.log, rand := r }

theorem State.raise_withHistory (s : State) (earlier : List Report) (r : Byte) (rep : Report) :
    (s.withHistory earlier r).raise rep = (s.raise rep).withHistory earlier r := by
  simp [State.raise, State.withHistory]

theorem State.memWrite_withHistory (s : State) (earlier : List Report) (r : Byte) (a : Nat) (v : Byte) :
    (s.withHistory earlier r).memWrite a v = (s.memWrite a v).withHistory earlier r := by
  unfold State.memWrite
  split
  · rfl
  · exact State.raise_withHistory s earlier r _

theorem State.memWriteBytes_withHistory (bytes : List Byte) (s : State) (earlier : List Report) (r : Byte) (a : Nat) :
    (s.withHistory earlier r).memWriteBytes a bytes = (s.memWriteBytes a bytes).withHistory earlier r := by
  induction bytes generalizing s a with
  | nil => rfl
  | cons v rest ih => rw [State.memWriteBytes, State.memWrite_withHistory, ih, State.memWriteBytes]

theorem State.memRead_withHistory (s : State) (earlier : List Report) (r : Byte) (a : Nat) :
    (s.withHistory earlier r).memRead a = ((s.memRead a).1, (s.memRead a).2.withHistory earlier r) := by
  unfold State.memRead
  split
  · rfl
  · rw [State.raise_withHistory]

theorem State.loadReg_withHistory (s : State) (earlier : List Report) (r : Byte) (k : Reg) (a : Nat) :
    (s.withHistory earlier r).loadReg k a = (s.loadReg k a).withHistory earlier r := by
  unfold State.loadReg
  rw [State.memRead_withHistory]
  obtain ⟨_ | v, u⟩ := s.memRead a <;> rfl

theorem State.loadRegs_withHistory (ks : List Reg) (s : State) (earlier : List Report) (r : Byte) (a : Nat) :
    (s.withHistory earlier r).loadRegs a ks = (s.loadRegs a ks).withHistory earlier r := by
  induction ks generalizing s a with
  | nil => rfl
  | cons k rest ih => rw [State.loadRegs, State.loadReg_withHistory, ih, State.loadRegs]

theorem State.blockAddr_withHistory (s : State) (earlier : List Report) (r : Byte) :
    (s.withHistory earlier r).blockAddr = s.blockAddr := rfl

theorem State.getV_withHistory (s : State) (earlier : List Report) (r : Byte) :
    (s.withHistory earlier r).getV = s.getV := rfl

theorem drawRow_withHistory (vx vy : Nat) (acc : State × Bool) (earlier : List Report) (r : Byte) (row : Nat) :
    drawRow vx vy (acc.1.withHistory earlier r, acc.2) row =
      ((drawRow vx vy acc row).1.withHistory earlier r, (drawRow vx vy acc row).2) := by
  unfold drawRow
  rw [State.blockAddr_withHistory, State.memRead_withHistory]
  obtain ⟨_ | v, u⟩ := acc.1.memRead (acc.1.blockAddr row) <;> rfl

theorem foldl_drawRow_withHistory (vx vy : Nat) (rows : List Nat) (acc : State × Bool) (earlier : List Report)
    (r : Byte) : rows.foldl (drawRow vx vy) (acc.1.withHistory earlier r, acc.2) =
      ((rows.foldl (drawRow vx vy) acc).1.withHistory earlier r, (rows.foldl (drawRow vx vy) acc).2) := by
  induction rows generalizing acc with
  | nil => rfl
  | cons row rows ih => rw [List.foldl_cons, drawRow_withHistory, ih, List.foldl_cons]

theorem drawSprite_withHistory (vx vy n : Nat) (s : State) (earlier : List Report) (r : Byte) :
    drawSprite vx vy n (s.withHistory earlier r) =
      ((drawSprite vx vy n s).1.withHistory earlier r, (drawSprite vx vy n s).2) :=
  foldl_drawRow_withHistory vx vy (List.range n) (s, false) earlier r

/-- An instruction run from a state with another history ends in the same state with that history, where either the
random byte is the same or the instruction is not RND. -/
theorem exec_withHistory {i : Instr} {s t : State} (earlier : List Report) {r : Byte}
    (hrand : r = s.rand ∨ ∀ x nn, i ≠ .rnd x nn) (h : exec i s = .next t) :
    exec i (s.withHistory earlier r) = .next (t.withHistory earlier r) := by
  cases i with
  | rnd x nn =>
    obtain rfl | hne := hrand
    · cases h
      rfl
    · exact absurd rfl (hne x nn)
  | call nnn =>
    obtain ⟨hfull, rfl⟩ | ⟨hroom, rfl⟩ := exec_call_cases h
    · rw [← State.raise_withHistory]
      exact exec_call_full nnn hfull
    · exact exec_call_room nnn hroom
  | ret =>
    obtain ⟨hstack, rfl⟩ | ⟨rest, a, hstack, rfl⟩ := exec_ret_cases h
    · rw [← State.raise_withHistory]
      exact exec_ret_nil hstack
    · exact exec_ret_append hstack
  | ldVxK x =>
    obtain ⟨hkey, rfl⟩ | ⟨k, hkey, rfl⟩ := exec_ldVxK_cases h
    · exact exec_ldVxK_none x hkey
    · exact exec_ldVxK_some x hkey
  | ldB x =>
    cases h
    rw [exec_ldB, State.memWriteBytes_withHistory]
    rfl
  | ldMemVx x =>
    cases h
    rw [exec_ldMemVx, State.memWriteBytes_withHistory]
    rfl
  | ldVxMem x =>
    cases h
    rw [exec_ldVxMem, State.loadRegs_withHistory]
    rfl
  | drw x y n =>
    cases h
    rw [exec_drw, State.getV_withHistory, drawSprite_withHistory]
    rfl
  | _ =>
    -- no branch and no loop: each operation writes one field that is neither the log nor the random byte
    cases h
    rfl

/-- No instruction writes the latched random byte. -/
theorem exec_rand {i : Instr} {s t : State} (h : exec i s = .next t) : t.rand = s.rand := by
  obtain ⟨-, hparts⟩ := instructionsChangeOnlyWhatTheTablesList i s t h
  obtain ⟨hrand, -, -⟩ : SameIn s t .outside := hparts .outside (by cases i <;> simp [partsWritten])
  exact hrand

/-- Settles O13: another history that differs only in the reports raised before. -/
theorem reportsAreNotObservable : Obligations.ReportsAreNotObservable := by
  intro i s t earlier h
  have hsame : t.withHistory earlier s.rand = { t with log := earlier ++ t.log } := by
    rw [← exec_rand h]
    rfl
  exact (exec_withHistory earlier (.inl rfl) h).trans (congrArg Host.Outcome.next hsame)

/-- Settles O14: another history that differs only in the random byte. -/
theorem onlyRndReadsTheRandomByte : Obligations.OnlyRndReadsTheRandomByte :=
  fun _ _ _ r hrnd h => exec_withHistory [] (r := r) (.inr hrnd) h

end Sys2Proof.Machine
end

section
/-! The proofs of the invariants O15 to O18 and of O19 and O20. What an instruction can do to memory, to PC and the
stack is said once each; what makes a predicate an invariant of every transition is said once
(`TransitionInvariant`); each invariant is then those few goals. -/

namespace Sys2Proof.Machine

open Sys2Proof.Safety

/-! ### What an instruction can do to memory, to PC and to the stack -/

/-- An instruction leaves memory as it is or writes one block at `I` (R60). -/
theorem exec_mem_cases {i : Instr} {s t : State} (h : exec i s = .next t) :
    t.mem = s.mem ∨ ∃ bytes, t.mem = (s.memWriteBytes (s.blockAddr 0) bytes).mem := by
  cases i with
  | ldB x | ldMemVx x =>
    cases h
    exact .inr ⟨_, rfl⟩
  | ret =>
    obtain ⟨-, rfl⟩ | ⟨rest, a, -, rfl⟩ := exec_ret_cases h <;> exact .inl rfl
  | call nnn =>
    obtain ⟨-, rfl⟩ | ⟨-, rfl⟩ := exec_call_cases h <;> exact .inl rfl
  | ldVxK x =>
    obtain ⟨-, rfl⟩ | ⟨k, -, rfl⟩ := exec_ldVxK_cases h <;> exact .inl rfl
  | ldVxMem x =>
    cases h
    exact .inl (State.loadRegs_mem s _ _)
  | drw x y n =>
    cases h
    exact .inl (drawSprite_mem _ _ _ s)
  | _ =>
    cases h
    exact .inl rfl

/-- The greatest PC any instruction reaches: `JP V0` from 0xFFF with 0xFF in V0 (R28). -/
def maxPc : Nat := 0x10FE

theorem toNat_zextAddr_le (nnn : Addr12) : (zextAddr nnn).toNat ≤ maxPc := by
  rw [toNat_zextAddr, maxPc]
  omega

/-- The target of `JP V0` as a number: the sum is not truncated (R117). -/
theorem toNat_jpV0_target (nnn : Addr12) (a : Byte) : (zextAddr nnn + zextByte a).toNat = nnn.toNat + a.toNat := by
  rw [BitVec.toNat_add, toNat_zextAddr, toNat_zextByte, Nat.mod_eq_of_lt (by omega)]

/-- Everything an instruction can do to PC and the stack: stay, advance, skip or jump with the same stack, push the
return address, or pop it into PC. -/
theorem exec_control_cases {i : Instr} {s t : State} (h : exec i s = .next t) :
    (t.stack = s.stack ∧ (t.pc = s.pc ∨ t.pc = s.pc + 2 ∨ t.pc = s.pc + 4 ∨ t.pc.toNat ≤ maxPc)) ∨
      (s.stack.length < Config.stackDepth ∧ t.stack = s.stack ++ [s.pc + 2] ∧ t.pc.toNat ≤ maxPc) ∨
      s.stack = t.stack ++ [t.pc] := by
  cases i with
  | ret =>
    obtain ⟨-, rfl⟩ | ⟨rest, a, hstack, rfl⟩ := exec_ret_cases h
    · exact .inl ⟨rfl, .inl rfl⟩
    · exact .inr (.inr (by simp [hstack]))
  | call nnn =>
    obtain ⟨-, rfl⟩ | ⟨hroom, rfl⟩ := exec_call_cases h
    · exact .inl ⟨rfl, .inl rfl⟩
    · exact .inr (.inl ⟨Nat.not_le.mp fun hfull => hroom (decide_eq_true hfull), rfl, toNat_zextAddr_le nnn⟩)
  | jp nnn =>
    cases h
    exact .inl ⟨rfl, .inr (.inr (.inr (toNat_zextAddr_le nnn)))⟩
  | jpV0 nnn =>
    cases h
    have hle : (zextAddr nnn + zextByte (s.getV 0)).toNat ≤ maxPc := by
      rw [toNat_jpV0_target, maxPc]
      omega
    exact .inl ⟨rfl, .inr (.inr (.inr hle))⟩
  | seImm x nn | sneImm x nn | seReg x y | sneReg x y | skp x | sknp x =>
    cases h
    refine .inl ⟨rfl, .inr ?_⟩
    rw [State.advanceSkipping_pc]
    split
    · exact .inr (.inl rfl)
    · exact .inl rfl
  | ldVxK x =>
    obtain ⟨-, rfl⟩ | ⟨k, -, rfl⟩ := exec_ldVxK_cases h
    · exact .inl ⟨rfl, .inl rfl⟩
    · exact .inl ⟨rfl, .inr (.inl rfl)⟩
  | ldB x | ldMemVx x | ldVxMem x | drw x y n =>
    cases h
    exact .inl ⟨by simp, .inr (.inl (by simp))⟩
  | _ =>
    cases h
    exact .inl ⟨rfl, .inr (.inl rfl)⟩

/-! ### What every transition keeps -/

/-- A property of memory, stack and PC that reset has, that a loaded image and an advance past a fetched word keep, and
that every instruction keeps. -/
structure TransitionInvariant (P : State → Prop) : Prop where
  congr : ∀ {s t : State}, P s → t.mem = s.mem → t.stack = s.stack → t.pc = s.pc → P t
  reset : P State.reset
  load : ∀ (image : List Byte) {s : State}, P s → P (s.setMem (s.mem.rawWriteBytes Config.progBase image))
  advance : ∀ {s : State}, s.canFetch = true → P s → P s.advance
  exec : ∀ {i : Instr} {s t : State}, s.canFetch = true → P s → exec i s = .next t → P t

namespace TransitionInvariant

variable {P : State → Prop} (inv : TransitionInvariant P)

include inv

theorem fetchDecodeExecute_keeps {s t : State} (hs : P s) (h : fetchDecodeExecute s = .next t) : P t := by
  obtain ⟨-, hrefused⟩ | ⟨hcan, i, -, hexec⟩ | ⟨hcan, w, -, hunknown⟩ := fetchDecodeExecute_cases s
  · cases hrefused.symm.trans h
    exact inv.congr hs rfl rfl rfl
  · exact inv.exec hcan hs (hexec.symm.trans h)
  · cases hunknown.symm.trans h
    exact inv.advance hcan (inv.congr hs rfl rfl rfl)

theorem eventReset_has (s : State) : P (eventReset s) := inv.congr inv.reset rfl rfl rfl

theorem eventLoad_keeps (image : List Byte) {s : State} (hs : P s) : P (eventLoad image s) := by
  unfold eventLoad
  split
  · exact inv.load image hs
  · exact inv.congr hs rfl rfl rfl

theorem applyEvent_keeps {e : Event} {s t : State} (hs : P s) (h : applyEvent e s = .next t) : P t := by
  cases e with
  | step r => exact inv.fetchDecodeExecute_keeps (s := s.setRand r) (inv.congr hs rfl rfl rfl) h
  | reset =>
    cases h
    exact inv.eventReset_has s
  | load image =>
    cases h
    exact inv.eventLoad_keeps image hs
  | tick | redrawAck =>
    cases h
    exact inv.congr hs rfl rfl rfl
  | keyDown code =>
    cases h
    unfold eventKeyDown
    split
    · exact inv.congr hs rfl rfl rfl
    · exact hs
  | keyUp code =>
    cases h
    unfold eventKeyUp
    split
    · exact inv.congr hs rfl rfl rfl
    · exact hs

/-- Every transition keeps the property: the latches before an event are no part of memory, stack or PC. -/
theorem step_keeps {s t : State} (hs : P s) (h : step s = .next t) : P t := by
  obtain ⟨-, hstep⟩ | ⟨e, rest, -, hstep⟩ := step_cases s
  · have hlatched : P (s.countDraw.setRand (Config.freeRand s.draws)) := inv.congr hs rfl rfl rfl
    exact inv.fetchDecodeExecute_keeps hlatched (hstep.symm.trans h)
  · have hlatched : P (s.setSchedule rest) := inv.congr hs rfl rfl rfl
    exact inv.applyEvent_keeps hlatched (hstep.symm.trans h)

end TransitionInvariant

/-! ### The four invariants -/

theorem memoryCanonical_invariant : TransitionInvariant MemoryCanonical where
  congr hs hmem _ _ := by rwa [MemoryCanonical, hmem]
  reset := rfl
  load image _ hs := Memory.wf_rawWriteBytes image Config.progBase hs
  advance _ hs := hs
  exec _ hs h := by
    obtain hmem | ⟨bytes, hmem⟩ := exec_mem_cases h <;> rw [MemoryCanonical, hmem]
    · exact hs
    · exact State.memWriteBytes_wf bytes _ hs

/-- A block write reads as before below `PROG_BASE`, where nothing is writable (R54, decision D19). -/
theorem State.memWriteBytes_get_reserved (s : State) (a : Nat) (bytes : List Byte) {b : Nat}
    (hb : b < Config.progBase) : (s.memWriteBytes a bytes).mem.get b = s.mem.get b := by
  have hrefused : ¬ addrWritable b = true := fun h => absurd ((addrWritable_iff b).mp h).1 (Nat.not_le.mpr hb)
  rw [State.memWriteBytes_get, if_neg fun h => hrefused h.2]

/-- An image is written from `PROG_BASE` on and reads as before below it (R203). -/
theorem Memory.get_rawWriteBytes_reserved (m : Memory) (image : List Byte) {b : Nat} (hb : b < Config.progBase) :
    (m.rawWriteBytes Config.progBase image).get b = m.get b := by
  rw [Memory.get_rawWriteBytes, if_neg fun h => absurd h.1 (Nat.not_le.mpr hb)]

theorem reservedIntact_invariant : TransitionInvariant ReservedIntact where
  congr hs hmem _ _ := by rwa [ReservedIntact, hmem]
  reset _ _ := rfl
  load image s hs a ha := (Memory.get_rawWriteBytes_reserved s.mem image ha).trans (hs a ha)
  advance _ hs := hs
  exec _ hs h a ha := by
    obtain hmem | ⟨bytes, hmem⟩ := exec_mem_cases h <;> rw [hmem]
    · exact hs a ha
    · exact (State.memWriteBytes_get_reserved _ _ bytes ha).trans (hs a ha)

theorem stackBounded_invariant : TransitionInvariant StackBounded where
  congr hs _ hstack _ := by rwa [StackBounded, hstack]
  reset := Nat.zero_le _
  load _ _ hs := hs
  advance _ hs := hs
  exec _ hs h := by
    obtain ⟨hsame, -⟩ | ⟨hroom, hpush, -⟩ | hpop := exec_control_cases h
    · rwa [StackBounded, hsame]
    · rw [StackBounded, hpush, List.length_append]
      exact hroom
    · rw [StackBounded, hpop, List.length_append] at hs
      exact Nat.le_of_succ_le hs

/-- Past a word that was fetched, neither the normal advance nor a skip is truncated (R28). -/
theorem State.toNat_pc_advance {s : State} (h : s.canFetch = true) :
    (s.pc + 2).toNat ≤ Config.memSize ∧ (s.pc + 4).toNat ≤ maxPc := by
  have hlt : s.pc.toNat + 1 < 4096 := (State.canFetch_iff s).mp h
  rw [BitVec.toNat_add, BitVec.toNat_add]
  have h2 : (2 : Word16).toNat = 2 := rfl
  have h4 : (4 : Word16).toNat = 4 := rfl
  simp only [h2, h4, Config.memSize, maxPc]
  omega

theorem pcBounded_invariant : TransitionInvariant PcBounded where
  congr hs _ hstack hpc := by rwa [PcBounded, hstack, hpc]
  reset := ⟨by decide, fun _ hr => absurd hr List.not_mem_nil⟩
  load _ _ hs := hs
  advance hcan hs := ⟨(State.toNat_pc_advance hcan).1.trans (by decide), hs.2⟩
  exec {i s t} hcan hs h := by
    obtain ⟨hpc, hret⟩ := hs
    obtain ⟨hadv, hskip⟩ := State.toNat_pc_advance hcan
    obtain ⟨hstack, htarget⟩ | ⟨-, hpush, htarget⟩ | hpop := exec_control_cases h
    · refine ⟨?_, by rwa [hstack]⟩
      obtain heq | heq | heq | hle := htarget
      · rwa [heq]
      · rw [heq]
        exact hadv.trans (by decide)
      · rw [heq]
        exact hskip
      · exact hle
    · refine ⟨htarget, fun r hr => ?_⟩
      rw [hpush, List.mem_append, List.mem_singleton] at hr
      obtain hold | rfl := hr
      · exact hret r hold
      · exact hadv
    · have hmem : ∀ r ∈ t.stack ++ [t.pc], r.toNat ≤ Config.memSize := hpop ▸ hret
      exact ⟨(hmem t.pc (by simp)).trans (by decide), fun r hr => hmem r (by simp [hr])⟩

/-- Settles O15: canonical memory is an invariant. -/
theorem transitionsKeepMemoryCanonical : Obligations.TransitionsKeepMemoryCanonical :=
  fun _ _ => memoryCanonical_invariant.step_keeps

/-- Settles O16: the intact reserved region is an invariant. -/
theorem transitionsKeepTheReservedRegion : Obligations.TransitionsKeepTheReservedRegion :=
  fun _ _ => reservedIntact_invariant.step_keeps

/-- Settles O17: the bound of the stack is an invariant. -/
theorem transitionsKeepTheStackBounded : Obligations.TransitionsKeepTheStackBounded :=
  fun _ _ => stackBounded_invariant.step_keeps

/-- Settles O18: the bounds of PC and of the return addresses are, together, an invariant. -/
theorem transitionsKeepPcInRange : Obligations.TransitionsKeepPcInRange :=
  fun _ _ => pcBounded_invariant.step_keeps

theorem applyEvent_reset (s : State) : applyEvent .reset s = .next (eventReset s) := rfl

/-- Settles O19: each invariant holds at reset, and the reset event changes nothing it speaks of. -/
theorem resetMeetsTheInvariants : Obligations.ResetMeetsTheInvariants :=
  ⟨⟨memoryCanonical_invariant.reset, reservedIntact_invariant.reset, stackBounded_invariant.reset,
      pcBounded_invariant.reset⟩,
    fun s => ⟨eventReset s, applyEvent_reset s, memoryCanonical_invariant.eventReset_has s,
      reservedIntact_invariant.eventReset_has s, stackBounded_invariant.eventReset_has s,
      pcBounded_invariant.eventReset_has s⟩⟩

/-! ### The log -/

/-- The log of `t` continues that of `s`. -/
def LogGrows (s t : State) : Prop := ∃ rs, t.log = s.log ++ rs

theorem LogGrows.of_eq {s t : State} (h : t.log = s.log) : LogGrows s t := ⟨[], by rw [h, List.append_nil]⟩

theorem LogGrows.of_one {s t : State} {r : Report} (h : t.log = s.log ++ [r]) : LogGrows s t := ⟨[r], h⟩

theorem fetchDecodeExecute_logGrows {s t : State} (h : fetchDecodeExecute s = .next t) : LogGrows s t := by
  obtain ⟨-, hrefused⟩ | ⟨-, i, -, hexec⟩ | ⟨-, w, -, hunknown⟩ := fetchDecodeExecute_cases s
  · cases hrefused.symm.trans h
    exact .of_one rfl
  · obtain ⟨rs, hlog, -, -⟩ := exec_reportsAsListed (hexec.symm.trans h)
    exact ⟨rs, hlog⟩
  · cases hunknown.symm.trans h
    exact .of_one rfl

theorem applyEvent_logGrows {e : Event} {s t : State} (h : applyEvent e s = .next t) : LogGrows s t := by
  cases e with
  | step r => exact fetchDecodeExecute_logGrows (s := s.setRand r) h
  | reset | tick | redrawAck =>
    cases h
    exact .of_eq rfl
  | load image =>
    cases h
    unfold eventLoad
    split
    · exact .of_eq rfl
    · exact .of_one rfl
  | keyDown code =>
    cases h
    unfold eventKeyDown
    split <;> exact .of_eq rfl
  | keyUp code =>
    cases h
    unfold eventKeyUp
    split <;> exact .of_eq rfl

/-- Settles O20: an event appends what it reports, and the latches before it leave the log alone. -/
theorem reportLogOnlyGrows : Obligations.ReportLogOnlyGrows := by
  intro s t h
  obtain ⟨-, hstep⟩ | ⟨e, rest, -, hstep⟩ := step_cases s
  · have hgrows := fetchDecodeExecute_logGrows (hstep.symm.trans h)
    exact hgrows
  · have hgrows := applyEvent_logGrows (hstep.symm.trans h)
    exact hgrows

end Sys2Proof.Machine
end

section
/-! The proofs of O6 to O9: the step takes the next event of the schedule, and a step event runs the instruction at PC,
skips an unknown word, or only reports when it fetches nothing (50_interfaces.md R204, 30_encoding.md R80, R81, R89). -/

namespace Sys2Proof.Machine

open Sys2Proof.Safety

/-! ### What a step event does, by what it fetches -/

theorem applyEvent_step (r : Byte) (s : State) : applyEvent (.step r) s = fetchDecodeExecute (s.setRand r) := rfl

theorem fetchDecodeExecute_known {s : State} {i : Instr} (hcan : s.canFetch = true)
    (hi : decode s.fetchWord = .known i) : fetchDecodeExecute s = exec i s := by
  simp only [fetchDecodeExecute, State.fetch, hcan, if_true, execWord, hi]

theorem fetchDecodeExecute_unknown {s : State} {w : Word16} (hcan : s.canFetch = true)
    (hw : decode s.fetchWord = .unknown w) :
    fetchDecodeExecute s = .next (s.raise (.unknownOpcode w)).advance := by
  simp only [fetchDecodeExecute, State.fetch, hcan, if_true, execWord, hw, execUnknown]

theorem fetchDecodeExecute_refused {s : State} (hcan : s.canFetch = false) :
    fetchDecodeExecute s = .next (s.raise (.fetchOutOfRange s.pc)) := by
  simp only [fetchDecodeExecute, State.fetch, hcan, Bool.false_eq_true, if_false, execNoFetch]

/-- A step event runs the instruction at PC with its own byte latched (R204). -/
theorem applyEvent_step_known {s : State} {i : Instr} (r : Byte) (hcan : s.canFetch = true)
    (hi : decode s.fetchWord = .known i) : applyEvent (.step r) s = exec i (s.setRand r) :=
  fetchDecodeExecute_known (s := s.setRand r) hcan hi

theorem applyEvent_step_unknown {s : State} {w : Word16} (r : Byte) (hcan : s.canFetch = true)
    (hw : decode s.fetchWord = .unknown w) :
    applyEvent (.step r) s = .next ((s.setRand r).raise (.unknownOpcode w)).advance :=
  fetchDecodeExecute_unknown (s := s.setRand r) hcan hw

theorem applyEvent_step_refused {s : State} (r : Byte) (hcan : s.canFetch = false) :
    applyEvent (.step r) s = .next ((s.setRand r).raise (.fetchOutOfRange s.pc)) :=
  fetchDecodeExecute_refused (s := s.setRand r) hcan

theorem State.canFetch_eq_false_iff (s : State) : s.canFetch = false ↔ Config.memSize ≤ s.pc.toNat + 1 := by
  rw [← Bool.not_eq_true, State.canFetch_iff, Nat.not_lt]

/-! ### The schedule -/

theorem step_of_schedule_nil {s : State} (h : s.schedule = []) :
    step s = applyEvent (.step (Config.freeRand s.draws)) s.countDraw := by
  simp only [step, h, applyEvent]

theorem step_of_schedule_cons {s : State} {e : Event} {rest : List Event} (h : s.schedule = e :: rest) :
    step s = applyEvent e (s.setSchedule rest) := by
  simp only [step, h]

/-- Settles O7: the two cases of the schedule. -/
theorem stepAppliesTheNextEvent : Obligations.StepAppliesTheNextEvent :=
  fun _ => ⟨step_of_schedule_nil, fun _ _ => step_of_schedule_cons⟩

/-- Settles O6: the step is a step event, which runs what is fetched at PC; the latches before it are no part of the
fetch. -/
theorem stepExecutesTheDecodedInstruction : Obligations.StepExecutesTheDecodedInstruction := by
  intro s i hpc hi
  have hcan : s.canFetch = true := (State.canFetch_iff s).mpr hpc
  constructor
  · intro h
    rw [step_of_schedule_nil h]
    exact applyEvent_step_known (s := s.countDraw) _ hcan hi
  · intro r rest h
    rw [step_of_schedule_cons h]
    exact applyEvent_step_known (s := s.setSchedule rest) r hcan hi

/-! ### The two step events that run no instruction -/

theorem State.setRand_raise_onlyChanges (s : State) (r : Byte) (rep : Report) :
    OnlyChanges [] [.reports, .outside] s ((s.setRand r).raise rep) :=
  (State.setRand_onlyChanges s r).trans (State.raise_onlyChanges _ rep)

/-- Settles O8: a refused fetch raises its report at the latched state. -/
theorem fetchPastTheEndOnlyReports : Obligations.FetchPastTheEndOnlyReports := fun r s hpc =>
  ⟨_, applyEvent_step_refused r ((State.canFetch_eq_false_iff s).mpr hpc), rfl,
    State.setRand_raise_onlyChanges s r _, rfl, rfl⟩

/-- Settles O9: an unknown word raises its report at the latched state, and then the normal advance. -/
theorem unknownWordIsReportedAndSkipped : Obligations.UnknownWordIsReportedAndSkipped := by
  intro r s w hpc hfetch hw
  have hword : decode s.fetchWord = .unknown w := (congrArg decode hfetch).trans hw
  have hframe : OnlyChanges [] [.pc, .reports, .outside] s ((s.setRand r).raise (.unknownOpcode w)).advance :=
    (State.setRand_raise_onlyChanges s r _).trans (State.advance_onlyChanges _)
  exact ⟨_, applyEvent_step_unknown r ((State.canFetch_iff s).mpr hpc) hword, rfl, rfl, hframe, rfl, rfl⟩

end Sys2Proof.Machine
end

section
/-! The proofs of O22 to O27, control flow (40_control_flow.md R111 to R117): the value and the frame of each
instruction from its equation. -/

namespace Sys2Proof

/-- A word of family 5 decodes to the register skip whatever its low nibble is (R90, decision D10). -/
@[simp] theorem decode_seReg (x y : Reg) (n : Nibble) : decode (0x5#4 ++ x ++ y ++ n) = .known (.seReg x y) := by
  simp [decode, decodeUnder]

/-- A word of family 9 decodes to the register skip whatever its low nibble is (R90, decision D10). -/
@[simp] theorem decode_sneReg (x y : Reg) (n : Nibble) : decode (0x9#4 ++ x ++ y ++ n) = .known (.sneReg x y) := by
  simp [decode, decodeUnder]

end Sys2Proof

namespace Sys2Proof.Machine

open Sys2Proof.Safety

/-! ### Jumps, CALL and RET -/

theorem exec_jpV0 (nnn : Addr12) (s : State) :
    exec (.jpV0 nnn) s = .next (s.jumpTo (zextAddr nnn + zextByte (s.getV 0))) := rfl

/-- Settles O22: the two zero-extended summands are too small for their sum to be truncated. -/
theorem jpV0AddsRegisterZero : Obligations.JpV0AddsRegisterZero := fun nnn s =>
  ⟨decode_encode (.jpV0 nnn), _, exec_jpV0 nnn s, toNat_jpV0_target nnn (s.getV 0), State.jumpTo_onlyChanges s _⟩

theorem State.stackFull_iff (s : State) : s.stackFull = true ↔ Config.stackDepth ≤ s.stack.length := by
  simp [State.stackFull]

theorem State.not_stackFull_iff (s : State) : ¬ s.stackFull = true ↔ s.stack.length < Config.stackDepth := by
  rw [State.stackFull_iff, Nat.not_le]

/-- Settles O23: with room a push and a jump, on a full stack one report. -/
theorem callPushesTheReturnAddress : Obligations.CallPushesTheReturnAddress := by
  intro nnn s
  refine ⟨decode_encode (.call nnn), fun hroom => ?_, fun hfull => ?_⟩
  · exact ⟨_, exec_call_room nnn ((State.not_stackFull_iff s).mpr hroom), rfl, toNat_zextAddr nnn,
      State.push_jumpTo_onlyChanges s _ _⟩
  · exact ⟨_, exec_call_full nnn ((State.stackFull_iff s).mpr hfull), rfl, State.raise_onlyChanges s _⟩

/-- Settles O24: with a return address a pop into PC, on an empty stack one report. -/
theorem retPopsTheReturnAddress : Obligations.RetPopsTheReturnAddress := by
  refine ⟨decode_encode .ret, fun s rest a hstack => ?_, fun s hstack => ?_⟩
  · exact ⟨_, exec_ret_append hstack, rfl, (State.pop_append hstack).2, State.dropTop_jumpTo_onlyChanges s a⟩
  · exact ⟨_, exec_ret_nil hstack, rfl, State.raise_onlyChanges s _⟩

/-- Settles O25: the stack CALL leaves ends in its return address, which is what RET pops. -/
theorem retAfterCallContinuesAfterTheCall : Obligations.RetAfterCallContinuesAfterTheCall := by
  intro nnn s hroom
  refine ⟨_, exec_call_room nnn ((State.not_stackFull_iff s).mpr hroom), fun u hu => ?_⟩
  have hstack : u.stack = s.stack ++ [s.pc + 2] := hu
  exact ⟨_, exec_ret_append hstack, rfl, (State.pop_append hstack).2⟩

/-! ### Skips -/

/-- PC after a skip that is taken when two bytes are equal. -/
theorem State.pc_advanceSkipping_beq (s : State) (a b : Byte) :
    (s.advanceSkipping (a == b)).pc = s.pc + (if a.toNat = b.toNat then 4 else 2) := by
  simp only [State.advanceSkipping_pc, beq_iff_eq, BitVec.toNat_inj]

/-- PC after a skip that is taken when two bytes differ. -/
theorem State.pc_advanceSkipping_bne (s : State) (a b : Byte) :
    (s.advanceSkipping (a != b)).pc = s.pc + (if a.toNat = b.toNat then 2 else 4) := by
  simp only [State.advanceSkipping_pc, bne_iff_ne, ne_eq, ite_not, BitVec.toNat_inj]

/-- Settles O26: both are the one skip, on equality and on difference of the two bytes. -/
theorem immediateSkipsCompareWithTheByte : Obligations.ImmediateSkipsCompareWithTheByte := fun x nn s =>
  ⟨decode_encode (.seImm x nn), decode_encode (.sneImm x nn),
    ⟨_, rfl, State.pc_advanceSkipping_beq s _ _, State.advanceSkipping_onlyChanges s _⟩,
    ⟨_, rfl, State.pc_advanceSkipping_bne s _ _, State.advanceSkipping_onlyChanges s _⟩⟩

/-- Settles O27: as for an immediate byte; the low nibble of the word is no operand. -/
theorem registerSkipsCompareTheRegisters : Obligations.RegisterSkipsCompareTheRegisters := fun x y n s =>
  ⟨decode_seReg x y n, decode_sneReg x y n,
    ⟨_, rfl, State.pc_advanceSkipping_beq s _ _, State.advanceSkipping_onlyChanges s _⟩,
    ⟨_, rfl, State.pc_advanceSkipping_bne s _ _, State.advanceSkipping_onlyChanges s _⟩⟩

end Sys2Proof.Machine
end

section
/-! The proofs of O31 to O34, logic and arithmetic (41_load_arith.md R133 to R140). The logic operations write one
register; the others write a result and then the flag, which wins where both are VF (10_state.md R23, decision D11). -/

namespace Sys2Proof

/-- A word of family 8 with low nibble 6 decodes to SHR whatever its `y` nibble is (R90, decision D13). -/
@[simp] theorem decode_shr (x y : Reg) : decode (0x8#4 ++ x ++ y ++ 0x6#4) = .known (.shr x) := by
  rw [decode_family8]
  simp [decodeFamily8]

/-- A word of family 8 with low nibble E decodes to SHL whatever its `y` nibble is (R90, decision D13). -/
@[simp] theorem decode_shl (x y : Reg) : decode (0x8#4 ++ x ++ y ++ 0xE#4) = .known (.shl x) := by
  rw [decode_family8]
  simp [decodeFamily8]

end Sys2Proof

namespace Sys2Proof.Machine

open Sys2Proof.Safety

/-! ### Logic -/

/-- Settles O31: each writes the bitwise value to one register and advances. -/
theorem logicOperationsActBitwiseWithoutFlag : Obligations.LogicOperationsActBitwiseWithoutFlag := by
  intro x y s
  refine ⟨decode_encode (.orReg x y), decode_encode (.andReg x y), decode_encode (.xorReg x y),
    ⟨_, rfl, fun j => ?_, rfl, State.setV_advance_onlyChanges s x _⟩,
    ⟨_, rfl, fun j => ?_, rfl, State.setV_advance_onlyChanges s x _⟩,
    ⟨_, rfl, fun j => ?_, rfl, State.setV_advance_onlyChanges s x _⟩⟩
  · rw [State.getV_setV_advance, BitVec.getLsbD_or]
  · rw [State.getV_setV_advance, BitVec.getLsbD_and]
  · rw [State.getV_setV_advance, BitVec.getLsbD_xor]

/-! ### Result and flag -/

/-- The result register holds the result unless it is the flag register. -/
theorem State.writeResultAndFlag_getV_result (s : State) {x : Reg} (r : Byte) (b : Bool) (h : x ≠ vf) :
    (s.writeResultAndFlag x r b).getV x = r := by
  rw [State.writeResultAndFlag_getV_other s x r b h, if_pos rfl]

theorem flagByte_decide (p : Prop) [Decidable p] : flagByte (decide p) = if p then 1 else 0 := by
  simp [flagByte]

theorem toNat_flagByte (b : Bool) : (flagByte b).toNat = b.toNat := by cases b <;> rfl

/-- The difference modulo 256 as an integer (R137). -/
theorem toNat_difference8_int (a b : Byte) : ((difference8 a b).toNat : Int) = ((a.toNat : Int) - b.toNat) % 256 := by
  rw [toNat_difference8]
  omega

theorem toNat_shiftedOutRight (a : Byte) : (shiftedOutRight a).toNat = a.toNat % 2 := by
  rw [shiftedOutRight, BitVec.getLsbD, Nat.testBit_zero]
  rcases Nat.mod_two_eq_zero_or_one a.toNat with h | h <;> simp [h]

theorem toNat_shiftedOutLeft (a : Byte) : (shiftedOutLeft a).toNat = a.toNat / 128 := by
  have hlt := a.isLt
  have hbit : a.toNat / 128 = 0 ∨ a.toNat / 128 = 1 := by omega
  rw [shiftedOutLeft, BitVec.getLsbD, Nat.testBit_eq_decide_div_mod_eq]
  rcases hbit with h | h <;> simp [h]

/-- Settles O32: the 8-bit sum is the result and the carry of the exact sum is the flag. -/
theorem addRegistersSetsTheCarry : Obligations.AddRegistersSetsTheCarry := by
  intro x y s
  refine ⟨decode_encode (.addReg x y), _, rfl, ?_, fun hx => ?_, rfl, State.writeResultAndFlag_onlyChanges s x _ _⟩
  · rw [State.writeResultAndFlag_getV_flag, carry, flagByte_decide]
  · rw [State.writeResultAndFlag_getV_result s _ _ hx, toNat_sum8]

/-- What both subtractions leave: the not-borrow flag and the difference. -/
theorem State.writeDifference (s : State) (x : Reg) (a b : Byte) :
    (s.writeResultAndFlag x (difference8 a b) (notBorrow a b)).getV vf = (if a.toNat ≥ b.toNat then 1 else 0) ∧
      (x ≠ vf → (((s.writeResultAndFlag x (difference8 a b) (notBorrow a b)).getV x).toNat : Int) =
        ((a.toNat : Int) - b.toNat) % 256) := by
  refine ⟨?_, fun hx => ?_⟩
  · rw [State.writeResultAndFlag_getV_flag, notBorrow, flagByte_decide]
  · rw [State.writeResultAndFlag_getV_result s _ _ hx, toNat_difference8_int]

/-- Settles O33: both are the same subtraction, the operands in either order. -/
theorem subtractionsSetNotBorrow : Obligations.SubtractionsSetNotBorrow := by
  intro x y s
  obtain ⟨hflag, hresult⟩ := s.writeDifference x (s.getV x) (s.getV y)
  obtain ⟨hflag', hresult'⟩ := s.writeDifference x (s.getV y) (s.getV x)
  exact ⟨decode_encode (.sub x y), decode_encode (.subn x y),
    ⟨_, rfl, hflag, hresult, rfl, State.writeResultAndFlag_onlyChanges s x _ _⟩,
    ⟨_, rfl, hflag', hresult', rfl, State.writeResultAndFlag_onlyChanges s x _ _⟩⟩

/-- Settles O34: half or double is the result and the lost bit is the flag. -/
theorem shiftsPutTheLostBitInTheFlag : Obligations.ShiftsPutTheLostBitInTheFlag := by
  intro x y s
  refine ⟨decode_shr x y, decode_shl x y,
    ⟨_, rfl, ?_, fun hx => ?_, rfl, State.writeResultAndFlag_onlyChanges s x _ _⟩,
    ⟨_, rfl, ?_, fun hx => ?_, rfl, State.writeResultAndFlag_onlyChanges s x _ _⟩⟩
  · rw [State.writeResultAndFlag_getV_flag, toNat_flagByte, toNat_shiftedOutRight]
  · rw [State.writeResultAndFlag_getV_result s _ _ hx, toNat_shiftRight1]
  · rw [State.writeResultAndFlag_getV_flag, toNat_flagByte, toNat_shiftedOutLeft]
  · rw [State.writeResultAndFlag_getV_result s _ _ hx, toNat_shiftLeft1]

end Sys2Proof.Machine
end

section
/-! The proofs of O36 to O39 and O45 to O47: the index register and the timers (42_index_timers.md R151 to R155), the
random byte (44_random.md R175) and the keypad (45_input.md R180 to R182). -/

namespace Sys2Proof.Machine

open Sys2Proof.Safety

/-! ### Index register and timers -/

theorem exec_addI (x : Reg) (s : State) : exec (.addI x) s = .next (s.setI (s.i + zextByte (s.getV x))).advance := rfl

/-- Settles O36: 16-bit addition of a zero-extended byte. -/
theorem addIndexAddsWithoutFlag : Obligations.AddIndexAddsWithoutFlag := by
  intro x s
  refine ⟨decode_encode (.addI x), _, exec_addI x s, ?_, State.pc_setI_advance s _, State.setI_advance_onlyChanges s _⟩
  rw [State.i_setI_advance, BitVec.toNat_add, toNat_zextByte]

/-- Settles O37: one write each, of a register and of the timer. -/
theorem delayTimerIsReadAndWritten : Obligations.DelayTimerIsReadAndWritten := fun x s =>
  ⟨decode_encode (.ldVxDt x), decode_encode (.ldDtVx x),
    ⟨(s.setV x s.dt).advance, rfl, State.getV_setV_advance s x s.dt, rfl, State.setV_advance_onlyChanges s x _⟩,
    ⟨(s.setDt (s.getV x)).advance, rfl, rfl, rfl, State.setDt_advance_onlyChanges s _⟩⟩

/-- Settles O38: the level output is a function of the timer the instruction has written. -/
theorem soundTimerDrivesTheSoundOutput : Obligations.SoundTimerDrivesTheSoundOutput := by
  intro x s
  refine ⟨decode_encode (.ldStVx x), (s.setSt (s.getV x)).advance, rfl, rfl, ?_, rfl,
    State.setSt_advance_onlyChanges s _⟩
  rw [State.soundOn_eq_decide, decide_eq_true_iff, State.advance_st, State.setSt_st]

/-- The reset contents from address 0 on are the font table (R58). -/
theorem resetByte_eq_fontTable (a : Nat) : resetByte a = fontTable.getD a 0 := rfl

/-- Settles O39: the glyph lies within the reserved region, where memory is the font table. -/
theorem ldFPointsAtTheGlyph : Obligations.LdFPointsAtTheGlyph := by
  intro x s
  refine ⟨decode_encode (.ldF x), (s.setI (glyphAddr (s.getV x))).advance, rfl, toNat_glyphAddr _, rfl,
    State.setI_advance_onlyChanges s _, fun hintact k hk => ?_⟩
  have hreserved : 5 * ((s.getV x).toNat % 16) + k < Config.progBase := by
    have hlow : (s.getV x).toNat % 16 < 16 := Nat.mod_lt _ (by decide)
    rw [Config.progBase]
    omega
  rw [State.i_setI_advance, toNat_glyphAddr, State.advance_mem, State.setI_mem, hintact _ hreserved,
    resetByte_eq_fontTable]

/-! ### The random byte -/

theorem exec_rnd (x : Reg) (nn : Byte) (s : State) : exec (.rnd x nn) s = .next (s.setV x (s.rand &&& nn)).advance :=
  rfl

/-- Settles O45: RND masks the latched byte, and a step event latches its own. -/
theorem rndMasksTheRandomByte : Obligations.RndMasksTheRandomByte := by
  intro x nn s
  have hmask (u : State) (j : Nat) : ((u.setV x (u.rand &&& nn)).advance.getV x).getLsbD j =
      (u.rand.getLsbD j && nn.getLsbD j) := by
    rw [State.getV_setV_advance, BitVec.getLsbD_and]
  refine ⟨decode_encode (.rnd x nn),
    ⟨_, exec_rnd x nn s, hmask s, rfl, State.setV_advance_onlyChanges s x _⟩, fun r hcan hi => ?_⟩
  exact ⟨_, (applyEvent_step_known r hcan hi).trans (exec_rnd x nn _), hmask (s.setRand r)⟩

/-! ### The keypad -/

/-- Settles O46: the two cases of the latch. -/
theorem ldKeyConsumesThePendingKey : Obligations.LdKeyConsumesThePendingKey := by
  intro x s
  refine ⟨decode_encode (.ldVxK x), fun k hkey => ?_, exec_ldVxK_none x⟩
  refine ⟨_, exec_ldVxK_some x hkey, ?_, rfl, rfl, State.takeKey_onlyChanges s x _⟩
  rw [State.advance_getV, State.setPending_getV, State.getV_setV_same, toNat_zextNibble]

/-- A register names a held key exactly when its value is the code of a key that is held (R181, decision D23). -/
theorem State.keyIsHeld_iff (s : State) (a : Byte) :
    s.keyIsHeld a = true ↔ ∃ k : Fin Config.nKeys, a.toNat = k.val ∧ s.keyHeld[k] = true := by
  unfold State.keyIsHeld
  split
  case isTrue hlt =>
    refine ⟨fun hheld => ⟨⟨a.toNat, hlt⟩, rfl, hheld⟩, ?_⟩
    rintro ⟨⟨k, hk⟩, rfl, hheld⟩
    exact hheld
  case isFalse hge =>
    refine ⟨fun h => absurd h Bool.false_ne_true, ?_⟩
    rintro ⟨k, hk, -⟩
    exact absurd (hk ▸ k.isLt) hge

theorem State.pc_advanceSkipping_true {s : State} {b : Bool} (h : b = true) : (s.advanceSkipping b).pc = s.pc + 4 := by
  rw [h]
  rfl

theorem State.pc_advanceSkipping_false {s : State} {b : Bool} (h : b = false) :
    (s.advanceSkipping b).pc = s.pc + 2 := by
  rw [h]
  rfl

/-- Settles O47: both skip on the one test of the held key. -/
theorem keySkipsTestTheHeldKey : Obligations.KeySkipsTestTheHeldKey := by
  intro x s
  simp only [← State.keyIsHeld_iff, Bool.not_eq_true]
  refine ⟨decode_encode (.skp x), decode_encode (.sknp x),
    ⟨_, rfl, State.advanceSkipping_onlyChanges s _, State.pc_advanceSkipping_true, State.pc_advanceSkipping_false⟩,
    ⟨_, rfl, State.advanceSkipping_onlyChanges s _, fun hheld => ?_, fun hfree => ?_⟩⟩
  · exact State.pc_advanceSkipping_false (by rw [hheld, Bool.not_true])
  · exact State.pc_advanceSkipping_true (by rw [hfree, Bool.not_false])

end Sys2Proof.Machine
end

section
/-! The proofs of O40 to O44, the memory block transfers (43_memory_block.md R165 to R168, 20_memory.md R57, R60, R64):
which byte a block write leaves at which address, which register a block read fills from which address, and then the
five statements. -/

namespace Sys2Proof.Machine

open Sys2Proof.Safety

/-! ### One byte of a block -/

theorem State.blockAddr_eq (s : State) (k : Nat) : s.blockAddr k = s.blockAddr 0 + k := rfl

/-- Byte `k` of a block stands at the `k`-th address where an instruction may write it. -/
theorem State.memWriteBytes_get_written (s : State) {a k : Nat} {bytes : List Byte} {v : Byte}
    (hv : bytes[k]? = some v) (hbase : Config.progBase ≤ a + k) (hsize : a + k < Config.memSize) :
    (s.memWriteBytes a bytes).mem.get (a + k) = v := by
  rw [State.memWriteBytes_get, if_pos ⟨Nat.le_add_right a k, (addrWritable_iff _).mpr ⟨hbase, hsize⟩⟩,
    Nat.add_sub_cancel_left, hv, Option.getD_some]

/-- An address that may not be written, or that no byte of the block falls on, reads as before. -/
theorem State.memWriteBytes_get_unwritten (s : State) {a b : Nat} {bytes : List Byte}
    (h : b < Config.progBase ∨ Config.memSize ≤ b ∨ ∀ k, k < bytes.length → b ≠ a + k) :
    (s.memWriteBytes a bytes).mem.get b = s.mem.get b := by
  rw [State.memWriteBytes_get]
  split
  case isFalse => rfl
  case isTrue hin =>
    obtain ⟨hle, hw⟩ := hin
    obtain ⟨hbase, hsize⟩ := (addrWritable_iff b).mp hw
    obtain hlow | hhigh | hoff := h
    · exact absurd hbase (Nat.not_le.mpr hlow)
    · exact absurd hsize (Nat.not_lt.mpr hhigh)
    · have hpast : bytes.length ≤ b - a := Nat.not_lt.mp fun hlt => hoff (b - a) hlt (by omega)
      rw [List.getElem?_eq_none hpast, Option.getD_none]

/-- The addresses of a block in ascending order. -/
theorem State.range'_blockAddr (s : State) (n : Nat) :
    List.range' (s.blockAddr 0) n = (List.range n).map s.blockAddr := by
  rw [List.range'_eq_map_range]
  rfl

/-! ### LD B -/

theorem toNat_bcdDigits (a : Byte) : ∃ d₀ d₁ d₂ : Byte, bcdDigits a = [d₀, d₁, d₂] ∧ d₀.toNat = a.toNat / 100 ∧
    d₁.toNat = a.toNat / 10 % 10 ∧ d₂.toNat = a.toNat % 10 := by
  have hlt := a.isLt
  have hdigit (n : Nat) (hn : n < 256) : (BitVec.ofNat 8 n).toNat = n := Nat.mod_eq_of_lt hn
  exact ⟨_, _, _, rfl, hdigit _ (by omega), hdigit _ (by omega), hdigit _ (by omega)⟩

/-- Settles O40: the digits are a block of three bytes at `I`. -/
theorem ldBStoresDecimalDigits : Obligations.LdBStoresDecimalDigits := by
  intro x s
  obtain ⟨d₀, d₁, d₂, hdigits, h₀, h₁, h₂⟩ := toNat_bcdDigits (s.getV x)
  have hexec := exec_ldB x s
  rw [hdigits] at hexec
  refine ⟨decode_encode (.ldB x), _, hexec, fun a hbase hsize => ⟨?_, ?_, ?_⟩, fun a ha => ?_, ?_, ?_,
    State.memWriteBytes_advance_onlyChanges s _ _⟩
  · rintro rfl
    rw [← h₀]
    exact congrArg _ (s.memWriteBytes_get_written (k := 0) rfl hbase hsize)
  · rintro rfl
    rw [← h₁]
    exact congrArg _ (s.memWriteBytes_get_written (k := 1) rfl hbase hsize)
  · rintro rfl
    rw [← h₂]
    exact congrArg _ (s.memWriteBytes_get_written (k := 2) rfl hbase hsize)
  · refine s.memWriteBytes_get_unwritten (ha.imp_right (Or.imp_right ?_))
    rintro ⟨hne₀, hne₁, hne₂⟩ k hk
    match k, hk with
    | 0, _ => exact hne₀
    | 1, _ => exact hne₁
    | 2, _ => exact hne₂
  · exact State.memWriteBytes_log _ s _
  · rw [State.advance_pc, State.memWriteBytes_pc]

/-! ### LD [I], Vx -/

/-- The register stored `k`-th is register `k`. -/
theorem getElem?_storedRegs (s : State) {x k : Reg} (h : k.toNat ≤ x.toNat) :
    ((regsUpTo x).map s.getV)[k.toNat]? = some (s.getV k) := by
  rw [getElem?_map_regsUpTo, if_pos h, BitVec.ofNat_toNat, BitVec.setWidth_eq]

/-- Register `k` stands at `I + k` after LD [I], Vx where an instruction may write there (R166). -/
theorem State.storeRegs_get (s : State) {x k : Reg} (h : k.toNat ≤ x.toNat)
    (hbase : Config.progBase ≤ s.blockAddr k.toNat) (hsize : s.blockAddr k.toNat < Config.memSize) :
    (s.memWriteBytes (s.blockAddr 0) ((regsUpTo x).map s.getV)).mem.get (s.blockAddr k.toNat) = s.getV k :=
  s.memWriteBytes_get_written (getElem?_storedRegs s h) hbase hsize

/-- Settles O41: registers 0 to `x` are a block of `x + 1` bytes at `I`. -/
theorem ldMemoryStoresTheRegisters : Obligations.LdMemoryStoresTheRegisters := by
  intro x s
  refine ⟨decode_encode (.ldMemVx x), _, exec_ldMemVx x s, fun k hk hbase hsize => s.storeRegs_get hk hbase hsize,
    fun a ha => ?_, ?_, ?_, State.memWriteBytes_advance_onlyChanges s _ _⟩
  · refine s.memWriteBytes_get_unwritten (ha.imp_right (Or.imp_right fun hoff k hk => ?_))
    rw [List.length_map, length_regsUpTo] at hk
    have hreg : (BitVec.ofNat 4 k).toNat = k := Nat.mod_eq_of_lt (by omega)
    have hne := hoff (BitVec.ofNat 4 k) (by omega)
    rwa [hreg] at hne
  · rw [State.advance_log, State.memWriteBytes_log, List.length_map, length_regsUpTo, State.range'_blockAddr]
  · rw [State.advance_pc, State.memWriteBytes_pc]

/-! ### LD Vx, [I] -/

/-- Register `k` after LD Vx, [I]: the byte at `I + k` if it is loaded and that address exists (R167). -/
theorem State.loadRegsUpTo_getV (s : State) (x k : Reg) : (s.loadRegs (s.blockAddr 0) (regsUpTo x)).getV k =
    if k.toNat ≤ x.toNat ∧ s.blockAddr k.toNat < Config.memSize then s.mem.get (s.blockAddr k.toNat)
    else s.getV k := by
  rw [regsUpTo_eq, State.loadRegs_getV _ _ _ _ _ (by omega), Nat.sub_zero, ← State.blockAddr_eq]
  exact if_congr (by omega) rfl rfl

/-- Settles O42: the registers, the reports and the frame of one block read at `I`. -/
theorem ldRegistersLoadsFromMemory : Obligations.LdRegistersLoadsFromMemory := by
  intro x s
  refine ⟨decode_encode (.ldVxMem x), _, exec_ldVxMem x s, fun k hk => ?_, fun k hk => ?_, ?_, ?_,
    State.loadRegs_advance_onlyChanges s _ _⟩
  · rw [State.advance_getV, State.loadRegsUpTo_getV]
    exact if_congr (and_iff_right hk) rfl rfl
  · rw [State.advance_getV, State.loadRegsUpTo_getV, if_neg fun h => absurd h.1 (Nat.not_le.mpr hk)]
  · rw [State.advance_log, State.loadRegs_log, length_regsUpTo, State.range'_blockAddr]
  · rw [State.advance_pc, State.loadRegs_pc]

/-! ### A store, then a read of the same bytes -/

/-- Settles O43: what LD [I], Vx stores at `I + k` is what LD Vx, [I] loads from there. -/
theorem storedRegistersLoadBack : Obligations.StoredRegistersLoadBack := by
  intro x s hbase hsize
  refine ⟨_, exec_ldMemVx x s, fun u hmem hi => ⟨_, exec_ldVxMem x u, fun k hk => ?_⟩⟩
  have hblock : u.blockAddr = s.blockAddr := by
    funext n
    rw [State.blockAddr, State.blockAddr, hi]
  have haddr : Config.progBase ≤ s.blockAddr k.toNat ∧ s.blockAddr k.toNat < Config.memSize := by
    rw [State.blockAddr]
    omega
  rw [State.advance_getV, State.loadRegsUpTo_getV, hblock, if_pos ⟨hk, haddr.2⟩, hmem, State.advance_mem,
    s.storeRegs_get hk haddr.1 haddr.2]

/-- Settles O44: registers 0 and 1 stand where the fetch reads the high and the low byte. -/
theorem storedWordIsFetched : Obligations.StoredWordIsFetched := by
  intro x s hx hbase hsize
  refine ⟨_, exec_ldMemVx x s, fun u hmem hpc => ?_⟩
  have hhi : u.mem.get s.i.toNat = s.getV 0 := by
    rw [hmem, State.advance_mem]
    exact s.storeRegs_get (k := 0) (Nat.zero_le _) hbase (Nat.lt_of_succ_lt hsize)
  have hlo : u.mem.get (s.i.toNat + 1) = s.getV 1 := by
    rw [hmem, State.advance_mem]
    exact s.storeRegs_get (k := 1) hx (Nat.le_succ_of_le hbase) hsize
  have hcan : u.canFetch = true := by rwa [State.canFetch_iff, hpc]
  rw [State.fetch, if_pos hcan, State.fetchWord, hpc, hhi, hlo, joinBytes]

end Sys2Proof.Machine
end

section
/-! The proofs of O48 to O50, the display (46_display.md R190 to R192). Drawing toggles the cells the sprite covers,
each once (Laws/Display.lean); so a second drawing toggles them back. -/

namespace Sys2Proof.Machine

open Sys2Proof.Safety

/-! ### CLS -/

theorem exec_cls (s : State) : exec .cls s = .next ((s.setDisp Display.clear).setRedraw true).advance := rfl

/-- Settles O48: every cell of the cleared display is off. -/
theorem clsTurnsEveryCellOff : Obligations.ClsTurnsEveryCellOff :=
  ⟨decode_encode .cls, fun s => ⟨_, exec_cls s, Display.cell_clear, rfl, rfl, State.clear_onlyChanges s⟩⟩

/-! ### What a drawing leaves -/

/-- A sprite of a DRW has fewer rows than the display. -/
theorem toNat_nibble_le_dispH (n : Nibble) : n.toNat ≤ Config.dispH := by
  have hlt := n.isLt
  rw [Config.dispH]
  omega

theorem drawSprite_pixel_covered {s : State} {vx vy px py : Nat} {n : Nibble}
    (h : SpriteCovers s vx vy n.toNat px py) :
    (drawSprite vx vy n.toNat s).1.pixel px py = !s.pixel px py := by
  rw [State.pixel_eq_cell, drawSprite_cell vx vy (toNat_nibble_le_dispH n),
    decide_eq_true ((mem_spriteCells s vx vy _ px py).mpr h), Bool.xor_true, State.pixel_eq_cell]

theorem drawSprite_pixel_uncovered {s : State} {vx vy px py : Nat} {n : Nibble}
    (h : ¬ SpriteCovers s vx vy n.toNat px py) :
    (drawSprite vx vy n.toNat s).1.pixel px py = s.pixel px py := by
  rw [State.pixel_eq_cell, drawSprite_cell vx vy (toNat_nibble_le_dispH n),
    decide_eq_false fun hmem => h ((mem_spriteCells s vx vy _ px py).mp hmem), Bool.xor_false, State.pixel_eq_cell]

/-- The collision flag: some covered cell was on (R191). -/
theorem drawSprite_collision_iff (s : State) (vx vy : Nat) (n : Nibble) :
    (drawSprite vx vy n.toNat s).2 = true ↔
      ∃ px py, SpriteCovers s vx vy n.toNat px py ∧ s.pixel px py = true := by
  rw [drawSprite_collision vx vy (toNat_nibble_le_dispH n), List.any_eq_true]
  constructor
  · rintro ⟨⟨px, py⟩, hmem, hon⟩
    exact ⟨px, py, (mem_spriteCells s vx vy _ px py).mp hmem, hon⟩
  · rintro ⟨px, py, hcov, hon⟩
    exact ⟨(px, py), (mem_spriteCells s vx vy _ px py).mpr hcov, hon⟩

/-- VF after a DRW is the collision flag as a byte. -/
theorem State.getV_vf_drawn (s : State) (b : Bool) : ((s.setFlag b).setRedraw true).advance.getV vf = flagByte b := by
  rw [State.advance_getV, State.setRedraw_getV, State.setFlag_getV_flag]

/-- Settles O49: the cells, the flag and the reports are those of drawing the sprite. -/
theorem drwInvertsTheCoveredCells : Obligations.DrwInvertsTheCoveredCells := by
  intro x y n s
  have hflag := drawSprite_collision_iff s (s.getV x).toNat (s.getV y).toNat n
  refine ⟨decode_encode (.drw x y n), _, exec_drw x y n s,
    fun px py => ⟨fun h => drawSprite_pixel_covered h, fun h => drawSprite_pixel_uncovered h⟩,
    fun h => ?_, fun h => ?_, drawSprite_log _ _ _ s, rfl, ?_, drawSprite_setFlag_onlyChanges _ _ _ s _⟩
  · rw [State.getV_vf_drawn, hflag.mpr h]
    rfl
  · rw [State.getV_vf_drawn, Bool.eq_false_iff.mpr fun hon => h (hflag.mp hon)]
    rfl
  · rw [State.advance_pc, State.setRedraw_pc, State.setFlag_pc, drawSprite_pc]

/-! ### Drawing twice -/

/-- Which cells a sprite covers depends on memory and `I` alone. -/
theorem spriteCovers_congr {s u : State} (hmem : u.mem = s.mem) (hi : u.i = s.i) (vx vy n px py : Nat) :
    SpriteCovers u vx vy n px py ↔ SpriteCovers s vx vy n px py := by
  simp only [SpriteCovers, State.blockAddr, hmem, hi]

/-- Drawing the same sprite at the same place on the display a first drawing left restores that display. -/
theorem drawSprite_twice {s u : State} {vx vy : Nat} {n : Nibble} (hmem : u.mem = s.mem) (hi : u.i = s.i)
    (hdisp : u.disp = (drawSprite vx vy n.toNat s).1.disp) : (drawSprite vx vy n.toNat u).1.disp = s.disp := by
  refine Display.ext_cells fun px py => ?_
  have hpixel : u.pixel px py = (drawSprite vx vy n.toNat s).1.pixel px py := by
    rw [State.pixel, hdisp, State.pixel]
  change (drawSprite vx vy n.toNat u).1.pixel px py = s.pixel px py
  by_cases hcov : SpriteCovers s vx vy n.toNat px py
  · rw [drawSprite_pixel_covered ((spriteCovers_congr hmem hi ..).mpr hcov), hpixel, drawSprite_pixel_covered hcov,
      Bool.not_not]
  · rw [drawSprite_pixel_uncovered fun h => hcov ((spriteCovers_congr hmem hi ..).mp h), hpixel,
      drawSprite_pixel_uncovered hcov]

/-- On a cleared display the first drawing meets no lit cell. -/
theorem drawSprite_collision_cleared {s : State} (hclear : ∀ px py, s.pixel px py = false) (vx vy : Nat) (n : Nibble) :
    (drawSprite vx vy n.toNat s).2 = false := by
  rw [← Bool.not_eq_true, drawSprite_collision_iff]
  rintro ⟨px, py, -, hon⟩
  exact absurd (hclear px py) (by rw [hon]; exact Bool.noConfusion)

/-- The second drawing then meets exactly the cells the first one lit. -/
theorem drawSprite_collision_again {s u : State} {vx vy : Nat} {n : Nibble} (hmem : u.mem = s.mem) (hi : u.i = s.i)
    (hdisp : u.disp = (drawSprite vx vy n.toNat s).1.disp) (hclear : ∀ px py, s.pixel px py = false) :
    (drawSprite vx vy n.toNat u).2 = true ↔ ∃ px py, SpriteCovers s vx vy n.toNat px py := by
  rw [drawSprite_collision_iff]
  refine exists_congr fun px => exists_congr fun py => ?_
  rw [spriteCovers_congr hmem hi, and_iff_left_iff_imp]
  intro hcov
  have hlit := drawSprite_pixel_covered hcov
  rw [hclear px py] at hlit
  rwa [State.pixel, hdisp]

theorem flagByte_eq_one_iff (b : Bool) : flagByte b = 1 ↔ b = true := by cases b <;> decide

/-- Settles O50: the second DRW draws the same cells from the display the first one left. -/
theorem drawingTwiceRestoresTheDisplay : Obligations.DrawingTwiceRestoresTheDisplay := by
  intro x y x' y' n s
  refine ⟨_, exec_drw x y n s, fun u hmem hi hdisp hx hy => ?_⟩
  have hexec := exec_drw x' y' n u
  rw [hx, hy] at hexec
  refine ⟨_, hexec, drawSprite_twice hmem hi hdisp, fun hclear => ⟨?_, ?_⟩⟩
  · rw [State.getV_vf_drawn, drawSprite_collision_cleared hclear]
    rfl
  · rw [State.getV_vf_drawn, flagByte_eq_one_iff]
    exact drawSprite_collision_again hmem hi hdisp hclear

end Sys2Proof.Machine
end

section
/-! The proofs of O52 to O55, the events (50_interfaces.md R203 to R206, 60_exceptions.md R241, 70_reset_and_hazards.md
R260): ticks in a row, the two key events, load and reset. -/

namespace Sys2Proof.Machine

open Sys2Proof.Safety

/-! ### Ticks in a row -/

/-- A scheduled tick is one transition, which leaves the rest of the schedule. -/
theorem step_tick (s : State) (es : List Event) :
    step (s.setSchedule (.tick :: es)) = .next ((eventTick s).setSchedule es) := by
  rw [step_of_schedule_cons (State.setSchedule_schedule s _), applyEvent_tick]
  rfl

/-- Settles O52, by induction on the number of ticks. -/
theorem timersReachZeroAfterTheirCount : Obligations.TimersReachZeroAfterTheirCount := by
  intro n s rest
  induction n generalizing s with
  | zero => exact ⟨s.setSchedule rest, rfl, rfl, rfl, rfl, rfl⟩
  | succ n ih =>
    obtain ⟨t, hrun, hdt, hst, hpc, hsched⟩ := ih (eventTick s)
    refine ⟨t, (core_run_succ n (step_tick s _)).trans hrun, ?_, ?_, hpc, hsched⟩
    · rw [hdt, eventTick_dt, toNat_countDown, Nat.sub_sub, Nat.add_comm]
    · rw [hst, eventTick_st, toNat_countDown, Nat.sub_sub, Nat.add_comm]

/-! ### Key events -/

theorem keyCodeValid_iff (code : Nat) : keyCodeValid code = true ↔ code < Config.nKeys := by simp [keyCodeValid]

theorem applyEvent_keyDown_valid {code : Nat} (h : code < Config.nKeys) (s : State) :
    applyEvent (.keyDown code) s = .next ((s.setHeld code true).setPending (some (BitVec.ofNat 4 code))) := by
  rw [applyEvent, eventKeyDown, if_pos ((keyCodeValid_iff code).mpr h)]

theorem applyEvent_keyUp_valid {code : Nat} (h : code < Config.nKeys) (s : State) :
    applyEvent (.keyUp code) s = .next (s.setHeld code false) := by
  rw [applyEvent, eventKeyUp, if_pos ((keyCodeValid_iff code).mpr h)]

theorem applyEvent_key_invalid {code : Nat} (h : Config.nKeys ≤ code) (s : State) :
    applyEvent (.keyDown code) s = .next s ∧ applyEvent (.keyUp code) s = .next s := by
  have hinvalid : ¬ keyCodeValid code = true := fun hv => absurd ((keyCodeValid_iff code).mp hv) (Nat.not_lt.mpr h)
  rw [applyEvent, applyEvent, eventKeyDown, eventKeyUp, if_neg hinvalid, if_neg hinvalid]
  exact ⟨rfl, rfl⟩

theorem State.setHeld_setPending_onlyChanges (s : State) (code : Nat) (b : Bool) (k : Option Nibble) :
    OnlyChanges [] [.keyPending, .keyHeld] s ((s.setHeld code b).setPending k) :=
  (State.setHeld_onlyChanges s code b).trans (State.setPending_onlyChanges _ k)

/-- Settles O53: a valid code writes the latch and the held key, any other code nothing. -/
theorem keyEventsSetTheLatchAndTheHeldKey : Obligations.KeyEventsSetTheLatchAndTheHeldKey := fun code s =>
  ⟨fun h =>
    ⟨⟨_, applyEvent_keyDown_valid h s, rfl, State.setHeld_get s code true,
        State.setHeld_setPending_onlyChanges s code true _⟩,
      ⟨_, applyEvent_keyUp_valid h s, State.setHeld_get s code false, State.setHeld_onlyChanges s code false⟩⟩,
    fun h => applyEvent_key_invalid h s⟩

/-! ### Load -/

theorem imageFits_iff (image : List Byte) : imageFits image = true ↔ image.length ≤ 3584 := decide_eq_true_iff

theorem applyEvent_load_fits {image : List Byte} (h : image.length ≤ 3584) (s : State) :
    applyEvent (.load image) s = .next (s.setMem (s.mem.rawWriteBytes Config.progBase image)) := by
  rw [applyEvent, eventLoad, if_pos ((imageFits_iff image).mpr h)]

theorem applyEvent_load_tooLarge {image : List Byte} (h : 3584 < image.length) (s : State) :
    applyEvent (.load image) s = .next (s.raise (.loadTooLarge image.length)) := by
  rw [applyEvent, eventLoad, if_neg fun hfits => absurd ((imageFits_iff image).mp hfits) (Nat.not_le.mpr h)]

/-- Byte `k` of an image that fits stands at `PROG_BASE + k` (R203). -/
theorem Memory.get_load_inside (m : Memory) {image : List Byte} (hfits : image.length ≤ 3584) {k : Nat}
    (hk : k < image.length) : (m.rawWriteBytes Config.progBase image).get (0x200 + k) = image[k] := by
  rw [Memory.get_rawWriteBytes, if_pos ⟨Nat.le_add_right 0x200 k, by rw [Config.memSize]; omega⟩,
    Nat.add_sub_cancel_left, List.getElem?_eq_getElem hk, Option.getD_some]

/-- Every address outside the image reads as before (R203). -/
theorem Memory.get_load_outside (m : Memory) {image : List Byte} {a : Nat}
    (ha : a < 0x200 ∨ 0x200 + image.length ≤ a) : (m.rawWriteBytes Config.progBase image).get a = m.get a := by
  obtain hbelow | habove := ha
  · exact Memory.get_rawWriteBytes_reserved m image hbelow
  · have hpast : image[a - Config.progBase]? = none := List.getElem?_eq_none (by rw [Config.progBase]; omega)
    rw [Memory.get_rawWriteBytes, hpast, Option.getD_none, ite_self]

/-- Settles O54: an image that fits is one raw write from `PROG_BASE` on, a longer one is one report. -/
theorem loadWritesTheImage : Obligations.LoadWritesTheImage := fun _ s =>
  ⟨fun hfits => ⟨_, applyEvent_load_fits hfits s, fun _ => s.mem.get_load_inside hfits,
      fun _ => s.mem.get_load_outside, State.setMem_onlyChanges s _⟩,
    fun hlarge => ⟨_, applyEvent_load_tooLarge hlarge s, rfl, State.raise_onlyChanges s _⟩⟩

/-! ### Reset -/

/-- The state after reset with the model's own fields as they are (log 1, 2, 3). -/
def resetKeeping (r : Byte) (n : Nat) (log : List Report) (es : List Event) : State :=
  { State.reset with rand := r, draws := n, log := log, schedule := es }

theorem eventReset_eq (s : State) : eventReset s = resetKeeping s.rand s.draws s.log s.schedule := rfl

theorem reset_eq : State.reset = resetKeeping 0x00 0 [] [] := rfl

/-- Past the font every byte of the reset contents is zero (R39, decision D27). -/
theorem resetByte_eq_zero {a : Nat} (h : 80 ≤ a) : resetByte a = 0 := by
  rw [resetByte_eq_fontTable, List.getD_eq_default _ _ h]

/-- Settles O55: the reset event and power-on give the same state up to the model's own fields. -/
theorem resetGivesTheResetValues : Obligations.ResetGivesTheResetValues := by
  intro s
  refine ⟨eventReset s, applyEvent_reset s, fun u hu => ?_, rfl, rfl, rfl, rfl⟩
  obtain ⟨r, n, log, es, rfl⟩ : ∃ r n log es, u = resetKeeping r n log es := by
    obtain rfl | rfl := hu
    · exact ⟨_, _, _, _, eventReset_eq s⟩
    · exact ⟨_, _, _, _, reset_eq⟩
  have hreg (k : Reg) : (resetKeeping r n log es).getV k = 0 := Vector.getElem_replicate k.isLt
  have hkey (k : Fin Config.nKeys) : (resetKeeping r n log es).keyHeld[k] = false := Vector.getElem_replicate k.isLt
  exact ⟨hreg, rfl, rfl, rfl, rfl, rfl, rfl, fun a _ => resetByte_eq_fontTable a, fun _ => resetByte_eq_zero,
    Display.cell_clear, rfl, rfl, hkey⟩

end Sys2Proof.Machine
end

section
/-! The proofs of O57 to O59, the conditions that persist (60_exceptions.md R236, R245, 50_interfaces.md R213): each is
a condition on fields that the step event leaves as they are. -/

namespace Sys2Proof.Machine

open Sys2Proof.Safety

/-! ### Stalls -/

/-- A stall depends on memory, PC and the stack alone. -/
theorem stalled_congr {s t : State} (h : Stalled s) (hmem : t.mem = s.mem) (hpc : t.pc = s.pc)
    (hstack : t.stack = s.stack) : Stalled t := by
  have hcan : t.canFetch = s.canFetch := by rw [State.canFetch, State.canFetch, hpc]
  have hword : t.fetchWord = s.fetchWord := by rw [State.fetchWord, State.fetchWord, hmem, hpc]
  have hfull : t.stackFull = s.stackFull := by rw [State.stackFull, State.stackFull, hstack]
  rwa [Stalled, hcan, hword, hfull, hstack]

/-- A step event from a stalled state is one report at the latched state (R236). -/
theorem applyEvent_step_stalled {s : State} (r : Byte) (h : Stalled s) :
    ∃ rep, applyEvent (.step r) s = .next ((s.setRand r).raise rep) := by
  obtain hcan | ⟨hcan, hret, hstack⟩ | ⟨hcan, ⟨nnn, hcall⟩, hfull⟩ := h
  · exact ⟨_, applyEvent_step_refused r hcan⟩
  · exact ⟨_, (applyEvent_step_known r hcan hret).trans (exec_ret_nil hstack)⟩
  · exact ⟨_, (applyEvent_step_known r hcan hcall).trans (exec_call_full nnn hfull)⟩

/-- Settles O57: the report and the latch touch nothing a stall depends on. -/
theorem stalledStatesStayStalled : Obligations.StalledStatesStayStalled := by
  intro r s h
  obtain ⟨rep, hstep⟩ := applyEvent_step_stalled r h
  exact ⟨_, hstep, stalled_congr h rfl rfl rfl, State.setRand_raise_onlyChanges s r rep, rep, rfl⟩

/-! ### The key wait -/

/-- A step event at LD Vx,K with a key pending ends the wait (R180). -/
theorem applyEvent_step_takesKey {s : State} {x : Reg} {k : Nibble} (r : Byte) (hcan : s.canFetch = true)
    (hword : decode s.fetchWord = .known (.ldVxK x)) (hkey : s.keyPending = some k) :
    ∃ u, applyEvent (.step r) s = .next u ∧ u.pc = s.pc + 2 ∧ u.keyPending = none :=
  ⟨_, (applyEvent_step_known r hcan hword).trans (exec_ldVxK_some x (s := s.setRand r) hkey), rfl, rfl⟩

/-- Settles O58: LD Vx,K finds no key and changes nothing; after a key_down it is still the instruction at PC, and finds
that key. -/
theorem waitingEndsWithAKeyDown : Obligations.WaitingEndsWithAKeyDown := by
  rintro r s ⟨hcan, ⟨x, hword⟩, hkey⟩
  refine ⟨(applyEvent_step_known r hcan hword).trans (exec_ldVxK_none x hkey), fun code hcode => ?_⟩
  exact ⟨_, applyEvent_keyDown_valid hcode s, applyEvent_step_takesKey r hcan hword rfl⟩

/-! ### The end of a run -/

/-- Settles O59: the jump to PC's own value is no change. -/
theorem finishedStatesRepeat : Obligations.FinishedStatesRepeat := by
  rintro r s ⟨hcan, nnn, hword, hself⟩
  have hjump : (s.setRand r).jumpTo (zextAddr nnn) = s.setRand r := by
    rw [hself]
    exact State.jumpTo_self (s.setRand r)
  have hexec : exec (.jp nnn) (s.setRand r) = .next (s.setRand r) := by rw [exec_jp, hjump]
  exact ⟨(applyEvent_step_known r hcan hword).trans hexec, hcan, nnn, hword, hself⟩

end Sys2Proof.Machine
end
